-- ==== Sys2Proof/Word.lean ====
section
/-! DEFINITION. The word types of the machine (spec/00_scope.md R8, R9): every value is an unsigned
bit string, bit 0 the least significant. -/

namespace Sys2Proof

/-- A 16-bit word: a register, an instruction or a memory word (R8). -/
abbrev Word := BitVec 16

/-- A memory byte (R8). -/
abbrev Byte := BitVec 8

/-- The 4-bit opcode field of an instruction (R8, R70). -/
abbrev Opcode := BitVec 4

/-- The 12-bit operand field of an instruction (R8, R70). -/
abbrev Operand := BitVec 12

end Sys2Proof
end

