-- ==== Sys2Proof/Syntax.lean ====
section
/-! DEFINITION. The instructions (spec/30_encoding.md R75), the outputs of decode_logic (R79), the
ALU's operations (spec/42_arithmetic.md R130) and a line of program source (R83) and the dump formats
(spec/20_memory.md R62). -/

namespace Sys2Proof

/-- The seven instructions of the opcode map, one constructor per row (R75). Each carries its 12-bit
operand field: a memory address for `lda` and `sta`, an immediate for the others (R73). -/
inductive Instr where
  | lda (operand : Operand)
  | sta (operand : Operand)
  | add (operand : Operand)
  | mul (operand : Operand)
  | div (operand : Operand)
  | mod (operand : Operand)
  | sea (operand : Operand)
deriving DecidableEq, Repr

/-- The `op` output of decode_logic (R79): the seven instructions and UNKNOWN. -/
inductive Op where
  | lda | sta | add | mul | div | mod | sea | unknown
deriving DecidableEq, Repr

/-- The operations of alu_16bit (R130). -/
inductive AluOp where
  | add | mul | div | mod
deriving DecidableEq, Repr

/-- A line `MNEMONIC OPERAND` of program source, its operand read as a number (R83). -/
structure SourceLine where
  mnemonic : List Char
  value : Nat
deriving DecidableEq, Repr

/-- The operand field of an instruction. -/
def Instr.operand : Instr → Operand
  | .lda x => x
  | .sta x => x
  | .add x => x
  | .mul x => x
  | .div x => x
  | .mod x => x
  | .sea x => x

/-- The mnemonic of an instruction, as program source spells it (R83). -/
def Instr.spelling : Instr → List Char
  | .lda _ => ['L', 'D', 'A']
  | .sta _ => ['S', 'T', 'A']
  | .add _ => ['A', 'D', 'D']
  | .mul _ => ['M', 'U', 'L']
  | .div _ => ['D', 'I', 'V']
  | .mod _ => ['M', 'O', 'D']
  | .sea _ => ['S', 'E', 'A']

/-- The format of a dump (spec/20_memory.md R62). -/
inductive DumpFormat where
  | hexadecimal | binary
deriving DecidableEq, Repr

end Sys2Proof
end

