-- ==== Sys2Proof/WellFormed.lean ====
section
/-! DEFINITION. The checks of the spec on what the machine is given: an instruction's operand range
(spec/30_encoding.md R73), the assigned opcodes (R75, R76), a source line (R83, R84), MEM_SIZE
(spec/00_scope.md R8). An `Instr` cannot be ill-formed, because its operand has 12 bits (R77). -/

namespace Sys2Proof

/-- The operand of an instruction is in [0, 4095] (R73). It holds of every `Instr` (R77). -/
def Instr.WellFormed (i : Instr) : Bool :=
  decide (i.operand.toNat ≤ 0xFFF)

/-- The opcode values that the opcode map assigns (R75). The other nine, 0x6 to 0xE, are illegal (R76). -/
def assignedOpcodes : List Opcode := [0x0#4, 0x1#4, 0x2#4, 0x3#4, 0x4#4, 0x5#4, 0xF#4]

/-- The mnemonics of program source (R83). -/
def mnemonicSet : List (List Char) :=
  [['S', 'E', 'A'], ['A', 'D', 'D'], ['M', 'U', 'L'], ['D', 'I', 'V'], ['M', 'O', 'D'], ['S', 'T', 'A'], ['L', 'D', 'A']]

/-- A source line names one of the seven mnemonics and its operand fits in 12 bits; a larger operand is
refused, not truncated (R83, R84, 92 D12). -/
def SourceLine.WellFormed (l : SourceLine) : Bool :=
  mnemonicSet.contains l.mnemonic && decide (l.value ≤ 0xFFF)

/-- The constraint on the parameter MEM_SIZE (R8). -/
def MemSizeOk (n : Nat) : Bool :=
  decide (2 ≤ n) && decide (n ≤ 65536)

end Sys2Proof
end

