-- ==== Sys2Proof/Decode.lean ====
section
/-! DEFINITION. decode_logic and the encoder (spec/30_encoding.md R70 to R82), and the helpers that split
and join words and bytes (spec/20_memory.md R42). -/

namespace Sys2Proof

/-- Bits 15:8 of a word, the byte at its lower address (R42). -/
def hiByte (w : Word) : Byte := (w >>> 8).setWidth 8

/-- Bits 7:0 of a word, the byte at its higher address (R42). -/
def loByte (w : Word) : Byte := w.setWidth 8

/-- The big-endian word of two bytes, the one at the lower address first (R42, R43). -/
def wordOfBytes (hi lo : Byte) : Word := (hi.setWidth 16 <<< 8) ||| lo.setWidth 16

/-- `zext_16` of an operand field (spec/00_scope.md R10, R73). -/
def zext16 (x : Operand) : Word := x.setWidth 16

/-- `opcode <- (IR >> 12) & 0xF` (R72). -/
def opcodeField (ir : Word) : Opcode := ((ir >>> 12) &&& 0xF#16).setWidth 4

/-- `operand <- IR & 0xFFF` (R72). -/
def operandField (ir : Word) : Operand := (ir &&& 0xFFF#16).setWidth 12

/-- The opcode map (R75, R79). -/
def decodeOp (opcode : Opcode) : Op :=
  match opcode with
  | 0x0#4 => .lda
  | 0x1#4 => .sta
  | 0x2#4 => .add
  | 0x3#4 => .mul
  | 0x4#4 => .div
  | 0x5#4 => .mod
  | 0xF#4 => .sea
  | _ => .unknown

/-- The outputs of decode_logic (R79). -/
structure DecodeOut where
  opcode : Opcode
  operand : Operand
  op : Op
deriving DecidableEq, Repr

/-- decode_logic: a pure function of IR, which never faults (R72, R79, R80). -/
def decodeLogic (ir : Word) : DecodeOut :=
  { opcode := opcodeField ir, operand := operandField ir, op := decodeOp (opcodeField ir) }

/-- Why bytes are no instruction. -/
inductive DecodeError where
  /-- The opcode is one of 0x6 to 0xE (R76). -/
  | unknownOpcode (opcode : Opcode)
  /-- Fewer than the two bytes of an instruction are given (R82); no fetch gives so few. -/
  | truncated
deriving DecidableEq, Repr

/-- The instruction of a word, or its unassigned opcode (R75, R76). -/
def decode (w : Word) : Except DecodeError Instr :=
  let d := decodeLogic w
  match d.op with
  | .lda => .ok (.lda d.operand)
  | .sta => .ok (.sta d.operand)
  | .add => .ok (.add d.operand)
  | .mul => .ok (.mul d.operand)
  | .div => .ok (.div d.operand)
  | .mod => .ok (.mod d.operand)
  | .sea => .ok (.sea d.operand)
  | .unknown => .error (.unknownOpcode d.opcode)

/-- The instruction at the head of a list of bytes, and the bytes after its two (R71, R82). -/
def decodeBytes : List Byte → Except DecodeError (Instr × List Byte)
  | hi :: lo :: rest =>
    match decode (wordOfBytes hi lo) with
    | .ok i => .ok (i, rest)
    | .error e => .error e
  | _ => .error .truncated

/-- `word = (opcode << 12) | operand` (R81). -/
def encodeFields (opcode : Opcode) (operand : Operand) : Word :=
  (opcode.setWidth 16 <<< 12) ||| operand.setWidth 16

/-- The opcode of an instruction (R75). -/
def opcodeOf : Instr → Opcode
  | .lda _ => 0x0#4
  | .sta _ => 0x1#4
  | .add _ => 0x2#4
  | .mul _ => 0x3#4
  | .div _ => 0x4#4
  | .mod _ => 0x5#4
  | .sea _ => 0xF#4

/-- The word of an instruction (R81). -/
def encode (i : Instr) : Word := encodeFields (opcodeOf i) i.operand

/-- The bytes of an instruction as memory stores them (R71). -/
def encodeBytes (i : Instr) : List Byte := [hiByte (encode i), loByte (encode i)]

/-- The instruction the decoder reads from the word `w` of the opcode table, of which `nbits` bits are
given and the bits above are 0. The word is laid out big-endian, as memory stores it (R71). -/
def decodeTableWord (nbits w : Nat) : Option Instr :=
  let word : Word := BitVec.ofNat 16 (w % 2 ^ nbits)
  match decodeBytes [hiByte word, loByte word] with
  | .ok (i, _) => some i
  | .error _ => none

end Sys2Proof
end

