-- ==== Sys2Proof/Config.lean ====
section
/-! DEFINITION. What an implementation fixes (MEM_SIZE) and the free values: opaque constants, of which
no proof can know anything. -/

namespace Sys2Proof

/-- MEM_SIZE of this hardware, its default (spec/00_scope.md R8, 92 D3; log entry 3). -/
def Config.memSize : Nat := 4096

/-- FREE VALUE. The ALU's output `y` for a zero divisor, which is not defined and which no rule reads
(spec/42_arithmetic.md R130, 93 U8; log entry 6). -/
opaque Config.aluUndefined : AluOp → Word → Word

/-- FREE VALUE. Whether the dump writes the hexadecimal letters in upper case (spec/20_memory.md R63,
93 U4). That all letters of all dumps have the same case is the model's choice (DESIGN CHOICE, log
entry 7). -/
opaque Config.dumpUppercase : Bool

/-- FREE VALUE. What a dump of `first` to `last` writes after the last byte of its line `k`: trailing spaces and the
line terminator (spec/20_memory.md R63 and R64, 93 U4). Each line of each call has its own, the last line too, so
nothing says that two lines end alike. That it depends on nothing but the call and the line is the model's choice (DESIGN
CHOICE, log entry 7). -/
opaque Config.dumpLineEnd : DumpFormat → (first last : Int) → (k : Nat) → List Char

/-- FREE VALUE. What a dump of `first` to `last` writes before its first line, a header or nothing: the spec lists a
header as not found (91 N11). That it depends on nothing but the call is the model's choice (DESIGN CHOICE, log
entry 7). -/
opaque Config.dumpHeader : DumpFormat → (first last : Int) → List Char

/-- FREE VALUE. What line `k` of a binary dump of `first` to `last` writes before its first byte, an address column or
nothing: the spec lists an address column as not found, and no example shows a binary line (91 N11). That it depends on
nothing but the call and the line is the model's choice (DESIGN CHOICE, log entry 7). -/
opaque Config.dumpLineStart : (first last : Int) → (k : Nat) → List Char

end Sys2Proof
end

