-- ==== Sys2Proof/Machine/State.lean ====
section
/-! DEFINITION. The state of the machine (spec/10_state.md R32), its memory's canonical form, the reasons
a step can stop, and the state after reset (R30). -/

namespace Sys2Proof.Machine

/-- The phases of the execute_state_machine (R26, R90). -/
inductive Phase where
  /-- FETCH: the next transition is a fetch, or a stop. -/
  | fetch
  /-- EXECUTE: IR holds a fetched instruction, which the next transition executes. -/
  | execute
  /-- HALTED: a fatal fault ended the run (terminal). -/
  | halted
  /-- STOPPED: the host's external stop ended the run (terminal). -/
  | stopped
deriving DecidableEq, Repr

/-- The three faults of the hardware (spec/60_exceptions.md R170). -/
inductive FaultKind where
  /-- A word access above MEM_SIZE - 2: a fetch, LDA or STA (R171). -/
  | outOfRange
  /-- DIV or MOD with operand 0 (R172). -/
  | divisionByZero
  /-- The execute phase meets an opcode of 0x6 to 0xE (R173). -/
  | unknownOpcode
deriving DecidableEq, Repr

/-- Memory contents: the bytes that differ from what an unlisted address reads as, by rising address. -/
abbrev Memory := List Host.Cell

/-- What an unlisted address reads as: memory is zero-initialised at creation (R30, spec/20_memory.md R40). -/
def unlistedByte : Byte := 0x00#8

/-- The canonical form of the memory of `size` bytes: addresses strictly rise, each is below `size`, and no
entry equals what an unlisted address reads as. -/
abbrev Memory.wf (size : Nat) (m : Memory) : Prop :=
  List.Pairwise (fun c d => c.1 < d.1) m ∧ ∀ c ∈ m, c.1 < size ∧ c.2 ≠ unlistedByte

/-- The state of the CORE block (R32), and two fields of the model's own. -/
structure State where
  /-- PC, the address of the next instruction (R24). -/
  pc : Word
  /-- IR, the currently fetched instruction (R23). -/
  ir : Word
  /-- AC, the accumulator (R22). -/
  ac : Word
  /-- M, the byte memory (R27). -/
  mem : Memory
  /-- The `phase` register (R26). -/
  phase : Phase
  /-- The `fault` register, `none` for NONE (R26). -/
  fault : Option FaultKind
  /-- The MODEL's field: MEM_SIZE, fixed at creation (R8, R27; log entry 3). -/
  memSize : Nat
  /-- The MODEL's field: what the host's input `stop_req` shows at each sample to come, the next one first;
  after the last, not asserted (spec/40_cycle.md R99; log entry 2). -/
  stopReqs : List Bool
deriving DecidableEq, Repr

/-- Why the machine has no next state: it is stuck in a terminal phase. The three faults of the spec are not
here, because taking one is a transition to a next state, in HALTED (spec/40_cycle.md R97; log entry 4). -/
inductive Fault where
  /-- Raised by `transition` and `step` in phase HALTED, where the machine has no step (R90, R97). Safe. -/
  | halted
  /-- Raised by `transition` and `step` in phase STOPPED, where the machine has no step (R90, R99). Safe. -/
  | stopped
deriving DecidableEq, Repr

/-- Why an instruction has no meaning in the model. -/
inductive Refusal where
  /-- Raised by an arm of `exec` for an instruction not modelled yet; no arm does. Safe. -/
  | notModelled (mnemonic : String)
deriving DecidableEq, Repr

/-- Creation with MEM_SIZE = `size` (R30, spec/70_reset_and_hazards.md R200). No stop is requested (DESIGN
CHOICE, log entry 2). -/
def State.create (size : Nat) : State :=
  { pc := 0x0000#16, ir := 0x0000#16, ac := 0x0000#16, mem := [], phase := .fetch, fault := none,
    memSize := size, stopReqs := [] }

/-- The machine right after reset: creation at this hardware's MEM_SIZE (R200). -/
def State.reset : State := State.create Config.memSize

end Sys2Proof.Machine
end

