-- ==== Sys2Proof/Machine/Flags.lean ====
section
/-! DEFINITION. The hardware has no flags (spec/10_state.md R25): no instruction sets, reads or tests one.
What it has are two one-bit condition outputs inside the block, `oor` of memory_word_access (spec/20_memory.md
R46) and `dz` of alu_16bit (spec/42_arithmetic.md R130), and the 2-bit codes of the status registers `phase`
and `fault` (spec/10_state.md R26). -/

namespace Sys2Proof.Machine

/-- `oor`: a word access at `a` in a memory of `size` bytes is out of range, `a > MEM_SIZE - 2` (R43, R46).
Addresses are natural numbers, so the arm `a < 0` is never taken (R47). -/
def oor (size a : Nat) : Bool := decide (size < a + 2)

/-- `dz`: the operation is DIV or MOD and the divisor is 0 (R130). -/
def dz (op : AluOp) (b : Word) : Bool :=
  match op with
  | .add => false
  | .mul => false
  | .div => b == 0x0000#16
  | .mod => b == 0x0000#16

/-- The encoding of the `phase` register (R26). -/
def phaseCode : Phase → BitVec 2
  | .fetch => 0#2
  | .execute => 1#2
  | .halted => 2#2
  | .stopped => 3#2

/-- The encoding of the `fault` register (R26, spec/60_exceptions.md R170). -/
def faultCode : Option FaultKind → BitVec 2
  | none => 0#2
  | some .outOfRange => 1#2
  | some .divisionByZero => 2#2
  | some .unknownOpcode => 3#2

end Sys2Proof.Machine
end

