-- ==== Sys2Proof/Machine/Ops.lean ====
section
/-! DEFINITION. The named operations over memory and registers: bytes and words of memory (spec/20_memory.md),
the register writes (spec/10_state.md R21), raising a fault (spec/40_cycle.md R97) and completing a cycle. There
is no return from a fault (spec/60_exceptions.md R177). -/

namespace Sys2Proof.Machine

/-! ### Bytes -/

/-- The byte at address `a` (R40). -/
def readByte : Memory → Nat → Byte
  | [], _ => unlistedByte
  | (k, b) :: m, a => if a = k then b else readByte m a

/-- The memory with the entry of address `a` taken out, so that `a` reads as an unlisted address. -/
def eraseByte : Memory → Nat → Memory
  | [], _ => []
  | (k, b) :: m, a => if a = k then eraseByte m a else (k, b) :: eraseByte m a

/-- The memory with the entry `(a, v)` in its place. -/
def insertByte : Memory → Nat → Byte → Memory
  | [], a, v => [(a, v)]
  | (k, b) :: m, a, v =>
    if a < k then (a, v) :: (k, b) :: m
    else if a = k then (a, v) :: m
    else (k, b) :: insertByte m a v

/-- `M[a] <- v`, keeping the canonical form. -/
def writeByte (m : Memory) (a : Nat) (v : Byte) : Memory :=
  if v = unlistedByte then eraseByte m a else insertByte m a v

/-! ### Words: memory_word_access -/

/-- `readWord(a)` of a memory of `size` bytes; `none` where it fails `OutOfRange` (R43). -/
def readWord (size : Nat) (m : Memory) (a : Nat) : Option Word :=
  if oor size a then none else some (wordOfBytes (readByte m a) (readByte m (a + 1)))

/-- `writeWord(a, v)`; `none` where it fails `OutOfRange`, and then no byte is written (R44, R45). -/
def writeWord (size : Nat) (m : Memory) (a : Nat) (v : Word) : Option Memory :=
  if oor size a then none else some (writeByte (writeByte m a (hiByte v)) (a + 1) (loByte v))

/-- `readWord` at any integer address, the arm `a < 0` included (R43). The core never presents a negative address
(R47), so its own accesses use `readWord`. -/
def readWordAt (size : Nat) (m : Memory) (a : Int) : Option Word :=
  if a < 0 then none else readWord size m a.toNat

/-- `writeWord` at any integer address, the arm `a < 0` included (R44, R47). -/
def writeWordAt (size : Nat) (m : Memory) (a : Int) (v : Word) : Option Memory :=
  if a < 0 then none else writeWord size m a.toNat v

/-! ### Registers: register_file and the status registers -/

/-- `PC <- v` (R21). -/
def State.writePc (v : Word) (s : State) : State := { s with pc := v }

/-- `IR <- v` (R21). -/
def State.writeIr (v : Word) (s : State) : State := { s with ir := v }

/-- `AC <- v` (R21). -/
def State.writeAc (v : Word) (s : State) : State := { s with ac := v }

/-- The memory array becomes `m`. -/
def State.writeMem (m : Memory) (s : State) : State := { s with mem := m }

/-- `phase <- p` (R26). -/
def State.writePhase (p : Phase) (s : State) : State := { s with phase := p }

/-- `fault <- k` and `phase <- HALTED` (R97). -/
def State.halt (k : FaultKind) (s : State) : State := { s with phase := .halted, fault := some k }

/-! ### Word accesses of the core -/

/-- `MemRead(a, 2)` in this state (spec/00_scope.md R12). -/
def State.loadWord (s : State) (a : Nat) : Option Word := readWord s.memSize s.mem a

/-- `MemWrite(a, 2, v)` in this state (spec/00_scope.md R12); `none` where it raises `OutOfRange`. -/
def State.storeWord (s : State) (a : Nat) (v : Word) : Option State :=
  match writeWord s.memSize s.mem a v with
  | none => none
  | some m => some (s.writeMem m)

/-! ### The ends of a transaction -/

/-- `raise K`: the transaction ends at once and the machine enters HALTED with fault status `k`, every write not
yet performed discarded (spec/00_scope.md R13, R97). This is the hardware's whole exception entry: no handler, no
saved address (spec/60_exceptions.md R176). -/
def raise (k : FaultKind) (s : State) : Host.Outcome State Fault Refusal := .next (s.halt k)

/-- The end of an execute step that does not fault: `phase <- FETCH` (spec/40_cycle.md R95). -/
def complete (s : State) : Host.Outcome State Fault Refusal := .next (s.writePhase .fetch)

end Sys2Proof.Machine
end

