-- ==== Sys2Proof/Machine/Operands.lean ====
section
/-! DEFINITION. The two readings of the operand field (spec/30_encoding.md R73): a memory address, and an
immediate literal. There is no other operand form and no other addressing mode (spec/41_load_store.md R120). -/

namespace Sys2Proof.Machine

/-- `EA = zext_16(operand)`, direct absolute (R120). -/
def effectiveAddress (x : Operand) : Nat := (zext16 x).toNat

/-- `imm = zext_16(operand)` (R73). -/
def immediate (x : Operand) : Word := zext16 x

end Sys2Proof.Machine
end

