-- ==== Sys2Proof/Machine/Alu.lean ====
section
/-! DEFINITION. alu_16bit (spec/42_arithmetic.md R130 to R135): four pure operations over 16-bit unsigned
operands, computed exactly and narrowed to 16 bits. -/

namespace Sys2Proof.Machine

/-- `add(a, b) = (a + b) mod 2^16` (R131). -/
def aluAdd (a b : Word) : Word := BitVec.ofNat 16 (a.toNat + b.toNat)

/-- `mul(a, b) = (a * b) mod 2^16` (R132). -/
def aluMul (a b : Word) : Word := BitVec.ofNat 16 (a.toNat * b.toNat)

/-- The unsigned quotient, rounded down, of a divisor that is not 0 (R133). -/
def aluDiv (a b : Word) : Word := BitVec.ofNat 16 (a.toNat / b.toNat)

/-- The unsigned remainder for a divisor that is not 0 (R134). -/
def aluMod (a b : Word) : Word := BitVec.ofNat 16 (a.toNat % b.toNat)

/-- The outputs of alu_16bit (R130). -/
structure AluOut where
  /-- The result, meaningful only when `dz` is false. -/
  y : Word
  /-- The operation failed `DivisionByZero`. -/
  dz : Bool
deriving DecidableEq, Repr

/-- The result of an operation whose divisor, if it has one, is not 0. -/
def aluResult (op : AluOp) (a b : Word) : Word :=
  match op with
  | .add => aluAdd a b
  | .mul => aluMul a b
  | .div => aluDiv a b
  | .mod => aluMod a b

/-- alu_16bit. With `dz` the output `y` is a free value, which nothing reads (R130, 93 U8; log entry 6). -/
def alu (op : AluOp) (a b : Word) : AluOut :=
  { y := if dz op b then Config.aluUndefined op a else aluResult op a b, dz := dz op b }

/-- The shape of the four arithmetic instructions: AC is the left operand, the immediate the right one, and AC
is written only when the ALU does not fail (spec/42_arithmetic.md section 2). -/
def aluInstr (op : AluOp) (x : Operand) (s : State) : Host.Outcome State Fault Refusal :=
  let o := alu op s.ac (immediate x)
  if o.dz then raise .divisionByZero s else complete (s.writeAc o.y)

end Sys2Proof.Machine
end

