-- ==== Sys2Proof/Machine/Arithmetic.lean ====
section
/-! DEFINITION. ADD, MUL, DIV and MOD (spec/42_arithmetic.md section 2). -/

namespace Sys2Proof.Machine

/-- ADD: `AC <- (AC + imm) mod 2^16` (R136). -/
def execAdd (x : Operand) (s : State) : Host.Outcome State Fault Refusal := aluInstr .add x s

/-- MUL: `AC <- (AC * imm) mod 2^16` (R137). -/
def execMul (x : Operand) (s : State) : Host.Outcome State Fault Refusal := aluInstr .mul x s

/-- DIV: `AC <- AC / imm`, or `DivisionByZero` with AC unchanged (R138). -/
def execDiv (x : Operand) (s : State) : Host.Outcome State Fault Refusal := aluInstr .div x s

/-- MOD: `AC <- AC % imm`, or `DivisionByZero` with AC unchanged (R139). -/
def execMod (x : Operand) (s : State) : Host.Outcome State Fault Refusal := aluInstr .mod x s

end Sys2Proof.Machine
end

