-- ==== Sys2Proof/Machine/LoadStore.lean ====
section
/-! DEFINITION. LDA and STA (spec/41_load_store.md). -/

namespace Sys2Proof.Machine

/-- LDA: `AC <- MemRead(EA, 2)`; `OutOfRange` leaves AC as it is (R121). -/
def execLda (x : Operand) (s : State) : Host.Outcome State Fault Refusal :=
  match s.loadWord (effectiveAddress x) with
  | none => raise .outOfRange s
  | some v => complete (s.writeAc v)

/-- STA: `MemWrite(EA, 2, AC)`; `OutOfRange` writes no byte (R122). -/
def execSta (x : Operand) (s : State) : Host.Outcome State Fault Refusal :=
  match s.storeWord (effectiveAddress x) s.ac with
  | none => raise .outOfRange s
  | some t => complete t

end Sys2Proof.Machine
end

