-- ==== Sys2Proof/Machine/SetAccumulator.lean ====
section
/-! DEFINITION. SEA (spec/43_set_accumulator.md). -/

namespace Sys2Proof.Machine

/-- SEA: `AC <- zext_16(operand)` (R160). -/
def execSea (x : Operand) (s : State) : Host.Outcome State Fault Refusal :=
  complete (s.writeAc (immediate x))

end Sys2Proof.Machine
end

