-- ==== Sys2Proof/Machine/Dispatch.lean ====
section
/-! DEFINITION. The dispatch of the execute phase (spec/40_cycle.md R95), one arm per instruction. -/

namespace Sys2Proof.Machine

/-- What an instruction does in a state whose PC the fetch has advanced already (R95). -/
def exec (i : Instr) (s : State) : Host.Outcome State Fault Refusal :=
  match i with
  | .lda x => Sys2Proof.Machine.execLda x s
  | .sta x => Sys2Proof.Machine.execSta x s
  | .add x => Sys2Proof.Machine.execAdd x s
  | .mul x => Sys2Proof.Machine.execMul x s
  | .div x => Sys2Proof.Machine.execDiv x s
  | .mod x => Sys2Proof.Machine.execMod x s
  | .sea x => Sys2Proof.Machine.execSea x s

end Sys2Proof.Machine
end

