-- ==== Sys2Proof/Machine/Cycle.lean ====
section
/-! DEFINITION. fetch_unit and execute_state_machine (spec/40_cycle.md): the stop sample, the fetch and execute
phases, one transition (R14, R90), and the fused instruction cycle (R105). -/

namespace Sys2Proof.Machine

/-! ### The external stop -/

/-- What `stop_req` shows at the next sample (R99). -/
def State.stopAsserted (s : State) : Bool := s.stopReqs.headD false

/-- The state after one sample of `stop_req`: the sample is used up, and nothing else changes. -/
def State.sampled (s : State) : State := { s with stopReqs := s.stopReqs.tail }

/-! ### Fetch -/

/-- The writes of a fetch of the word `w`: `IR <- w`, `PC <- (PC + 2) mod 2^16`, `phase <- EXECUTE` (R91, R93). -/
def State.fetched (w : Word) (s : State) : State :=
  ((s.writeIr w).writePc (s.pc + 2#16)).writePhase .execute

/-- The word at PC, if PC is in range (R91). -/
def State.fetchWord (s : State) : Option Word := s.loadWord s.pc.toNat

/-- The fetch phase, no stop being requested (R91, R92). -/
def fetch (s : State) : Host.Outcome State Fault Refusal :=
  match s.fetchWord with
  | none => raise .outOfRange s
  | some w => .next (s.fetched w)

/-! ### Execute -/

/-- The execute phase: decode IR and dispatch, or raise `UnknownOpcode` (R95, spec/60_exceptions.md R173). -/
def execute (s : State) : Host.Outcome State Fault Refusal :=
  match decode s.ir with
  | .ok i => exec i s
  | .error _ => raise .unknownOpcode s

/-! ### The state machine -/

/-- One transition of the execute_state_machine (R14, R90). In FETCH `stop_req` is sampled first (R99). In HALTED
and STOPPED the machine has no step. -/
def transition (s : State) : Host.Outcome State Fault Refusal :=
  match s.phase with
  | .fetch => if s.stopAsserted then .next (s.sampled.writePhase .stopped) else fetch s.sampled
  | .execute => execute s
  | .halted => .fault .halted
  | .stopped => .fault .stopped

/-- One instruction cycle: the fetch and the execute that follows it, as one step (R105; log entry 1). From EXECUTE
only the execute is left to do. -/
def runCycle (s : State) : Host.Outcome State Fault Refusal :=
  match s.phase with
  | .fetch =>
    if s.stopAsserted then .next (s.sampled.writePhase .stopped)
    else
      match s.sampled.fetchWord with
      | none => raise .outOfRange s.sampled
      | some w => execute (s.sampled.fetched w)
  | .execute => execute s
  | .halted => .fault .halted
  | .stopped => .fault .stopped

/-! ### Placing the next instruction -/

/-- The samples with the next one not asserted. -/
def clearNextStop : List Bool → List Bool
  | [] => []
  | _ :: rest => false :: rest

/-- The state whose next step fetches the word `w`, placed at PC as the host's program load would write it
(spec/70_reset_and_hazards.md R203; log entry 9). Where PC is out of range, no word can be placed. -/
def State.placeWord (w : Word) (s : State) : State :=
  { s with
    mem := (writeWord s.memSize s.mem s.pc.toNat w).getD s.mem
    phase := .fetch
    fault := none
    stopReqs := clearNextStop s.stopReqs }

end Sys2Proof.Machine
end

