-- ==== Sys2Proof/Machine/Interfaces.lean ====
section
/-! DEFINITION. The abstract interfaces of the sub-blocks that are not already the machine's own operations
(alu_16bit is `alu`, decode_logic is `decodeLogic`): memory_word_access (spec/20_memory.md R46), fetch_unit
(spec/40_cycle.md R94) and execute_state_machine (R100). They are views: the machine's operations compute what
these signals show. -/

namespace Sys2Proof.Machine

/-- The `req` input of memory_word_access (R46). -/
inductive MemReq where
  | read | write
deriving DecidableEq, Repr

/-- What memory_word_access answers, and the memory after the transaction (R46). -/
structure MemReply where
  /-- The value read: none for a WRITE, and none for a READ that failed (R43). -/
  rdata : Option Word
  oor : Bool
  mem : Memory
deriving DecidableEq, Repr

/-- memory_word_access: a request with `oor` has no other effect (R46). -/
def memoryWordAccess (size : Nat) (m : Memory) (req : MemReq) (addr wdata : Word) : MemReply :=
  match req with
  | .read => { rdata := readWord size m addr.toNat, oor := oor size addr.toNat, mem := m }
  | .write => { rdata := none, oor := oor size addr.toNat, mem := (writeWord size m addr.toNat wdata).getD m }

/-- The outputs of fetch_unit (R94). A write enable and its data are one optional word. -/
structure FetchOut where
  /-- `mem_req` READ and `mem_addr`, when the unit is started. -/
  memAddr : Option Word
  irWrite : Option Word
  pcWrite : Option Word
  done : Bool
  oor : Bool
deriving DecidableEq, Repr

/-- fetch_unit: given `start`, `pc_in` and memory's reply to its READ (R94). -/
def fetchUnit (start : Bool) (pcIn : Word) (reply : MemReply) : FetchOut :=
  if start then
    { memAddr := some pcIn
      irWrite := if reply.oor then none else reply.rdata
      pcWrite := if reply.oor then none else some (pcIn + 2#16)
      done := true
      oor := reply.oor }
  else { memAddr := none, irWrite := none, pcWrite := none, done := false, oor := false }

/-- The outputs of execute_state_machine to the host and to fetch_unit in a state (R100). -/
structure ControlOut where
  phase : BitVec 2
  fault : BitVec 2
  /-- Asserted in FETCH when no stop is requested (R94). -/
  start : Bool
deriving DecidableEq, Repr

/-- execute_state_machine's outputs (R100). -/
def controlOut (s : State) : ControlOut :=
  { phase := phaseCode s.phase, fault := faultCode s.fault,
    start := decide (s.phase = .fetch) && !s.stopAsserted }

/-- `cycle_done`: the transition from `s` to `t` is an execute step that returns to FETCH (R96, R100). -/
def cycleDone (s t : State) : Bool := decide (s.phase = .execute) && decide (t.phase = .fetch)

end Sys2Proof.Machine
end

