-- ==== Sys2Proof/Machine/Loader.lean ====
section
/-! DEFINITION. The program load at the block's interface (spec/30_encoding.md R83 to R87,
spec/70_reset_and_hazards.md R202, R203; the lexical rules are 92 D12): source lines to words, and words into
fresh memory by `writeWord`. -/

namespace Sys2Proof.Machine

/-- Why a program is rejected as a whole (R87). -/
inductive LoadError where
  /-- A line is neither blank nor a well-formed `MNEMONIC OPERAND`. -/
  | malformedLine
  /-- A word would fall outside memory. -/
  | programTooLong
deriving DecidableEq, Repr

/-- A space or a tab, the characters D12 names between a mnemonic and its operand and on a blank line. D12 also lets
"whitespace" stand before and after an instruction line without listing its characters: that only these two, and one
carriage return at the very end (`dropReturn`), count there, so that a form feed or a vertical tab makes the line
malformed, is the model's choice (DESIGN CHOICE, log entry 8). -/
def isSeparator (c : Char) : Bool := c == ' ' || c == '\t'

/-- The line without one carriage return at its very end (D12; log entry 8). -/
def dropReturn : List Char → List Char
  | [] => []
  | [c] => if c == '\r' then [] else [c]
  | c :: d :: cs => c :: dropReturn (d :: cs)

/-- The tokens of a line, between spaces and tabs; `cur` is the token being read, last character first. -/
def tokensFrom (cur : List Char) : List Char → List (List Char)
  | [] => if cur.isEmpty then [] else [cur.reverse]
  | c :: cs =>
    if isSeparator c then
      if cur.isEmpty then tokensFrom [] cs else cur.reverse :: tokensFrom [] cs
    else tokensFrom (c :: cur) cs

/-- The value of a hexadecimal digit 0-9, A-F or a-f (R84, D12). -/
def hexDigitValue (c : Char) : Option Nat :=
  let n := c.toNat
  if 48 ≤ n ∧ n ≤ 57 then some (n - 48)
  else if 65 ≤ n ∧ n ≤ 70 then some (n - 55)
  else if 97 ≤ n ∧ n ≤ 102 then some (n - 87)
  else none

/-- The value of a string of hexadecimal digits, read from the left, with `acc` the value so far. -/
def hexValueFrom (acc : Nat) : List Char → Option Nat
  | [] => some acc
  | c :: cs =>
    match hexDigitValue c with
    | none => none
    | some d => hexValueFrom (acc * 16 + d) cs

/-- The instruction a mnemonic and an operand name (R83, R75). -/
def instrOf (mnemonic : List Char) (x : Operand) : Option Instr :=
  if mnemonic = ['L', 'D', 'A'] then some (.lda x)
  else if mnemonic = ['S', 'T', 'A'] then some (.sta x)
  else if mnemonic = ['A', 'D', 'D'] then some (.add x)
  else if mnemonic = ['M', 'U', 'L'] then some (.mul x)
  else if mnemonic = ['D', 'I', 'V'] then some (.div x)
  else if mnemonic = ['M', 'O', 'D'] then some (.mod x)
  else if mnemonic = ['S', 'E', 'A'] then some (.sea x)
  else none

/-- A source line whose two tokens are read: a mnemonic and the value of its operand. -/
def parseTokens (mnemonic digits : List Char) : Option SourceLine :=
  match hexValueFrom 0 digits with
  | none => none
  | some v => some { mnemonic := mnemonic, value := v }

/-- The word of a source line, if the line is well formed (R83, R84): an operand above 0xFFF is refused. -/
def assembleSource (l : SourceLine) : Option Word :=
  if l.WellFormed then (instrOf l.mnemonic (BitVec.ofNat 12 l.value)).map encode else none

/-- A line of source: no word for a blank one, one word for an instruction, or the rejection (R85, D12). -/
def assembleLine (line : List Char) : Except LoadError (List Word) :=
  match tokensFrom [] (dropReturn line) with
  | [] => .ok []
  | [mnemonic, digits] =>
    match (parseTokens mnemonic digits).bind assembleSource with
    | some w => .ok [w]
    | none => .error .malformedLine
  | _ => .error .malformedLine

/-- The words of a program, given as its lines (R85, R87). -/
def assemble : List (List Char) → Except LoadError (List Word)
  | [] => .ok []
  | line :: lines =>
    match assembleLine line with
    | .error e => .error e
    | .ok ws =>
      match assemble lines with
      | .error e => .error e
      | .ok rest => .ok (ws ++ rest)

/-- Words written by `writeWord` at `a`, `a + 2`, and so on (R85); `none` where one is out of range. -/
def loadFrom (size : Nat) (a : Nat) (m : Memory) : List Word → Option Memory
  | [] => some m
  | w :: ws =>
    match writeWord size m a w with
    | none => none
    | some m' => loadFrom size (a + 2) m' ws

/-- Creation at MEM_SIZE = `size`, and the load of a program's words from address 0 (R202, R203). -/
def loadWords (size : Nat) (ws : List Word) : Except LoadError State :=
  match loadFrom size 0 (State.create size).mem ws with
  | none => .error .programTooLong
  | some m => .ok ((State.create size).writeMem m)

/-- The boot sequence up to the first fetch (R202). A program that cannot be assembled does not run (R87). -/
def boot (size : Nat) (source : List (List Char)) : Except LoadError State :=
  match assemble source with
  | .error e => .error e
  | .ok ws => loadWords size ws

end Sys2Proof.Machine
end

