-- ==== Sys2Proof/Machine/Observer.lean ====
section
/-! DEFINITION. What the host reads of the block (spec/70_reset_and_hazards.md R208, R209; spec/20_memory.md R62
to R65): the debug snapshot, the step observer, the error report and the memory dump. Each is a function of the
state and changes nothing. -/

namespace Sys2Proof.Machine

/-- A digit below 16 as a character, its letters in upper or lower case. -/
def hexDigit (upper : Bool) (n : Nat) : Char :=
  if n < 10 then Char.ofNat (48 + n) else if upper then Char.ofNat (55 + n) else Char.ofNat (87 + n)

/-- The debug snapshot: PC, IR and AC, each as text (R209). The labels and separators between them are not
specified, so the snapshot is the three strings (93 U4; log entry 7). -/
structure Snapshot where
  pc : List Char
  ir : List Char
  ac : List Char
deriving DecidableEq, Repr

/-- A register as exactly four hexadecimal digits, leading zeros and upper case (R209). -/
def snapshotWord (w : Word) : List Char :=
  [hexDigit true (w.toNat / 4096 % 16), hexDigit true (w.toNat / 256 % 16), hexDigit true (w.toNat / 16 % 16),
    hexDigit true (w.toNat % 16)]

/-- The debug snapshot of a state (R209). -/
def snapshot (s : State) : Snapshot :=
  { pc := snapshotWord s.pc, ir := snapshotWord s.ir, ac := snapshotWord s.ac }

/-- The step observer's view of a step: the snapshot after a completed cycle, and no call after one that faults
or stops (R208). -/
def observe (o : Host.Outcome State Fault Refusal) : Option Snapshot :=
  match o with
  | .next t => if t.phase = .fetch then some (snapshot t) else none
  | .fault _ => none
  | .refused _ => none

/-- The error report: the fault kind of a halted machine (R208). -/
def errorReport (s : State) : Option FaultKind := if s.phase = .halted then s.fault else none

/-- The failure of a dump: local, never a fault of the block (R65, spec/60_exceptions.md R179). -/
inductive LocalError where
  /-- The range of a dump is not within memory, or is empty (R62). -/
  | outOfRange
deriving DecidableEq, Repr

/-- How many bytes a line of a dump holds (R63, R64). -/
def bytesPerLine : DumpFormat → Nat
  | .hexadecimal => 16
  | .binary => 8

/-- A byte as the dump writes it: two hexadecimal digits (R63), or its eight bits, most significant first (R64). -/
def dumpByte : DumpFormat → Byte → List Char
  | .hexadecimal, b => [hexDigit Config.dumpUppercase (b.toNat / 16), hexDigit Config.dumpUppercase (b.toNat % 16)]
  | .binary, b => [7, 6, 5, 4, 3, 2, 1, 0].map fun k => if b.getLsbD k then '1' else '0'

/-- The bytes `M[first] .. M[last]` (R62). -/
def dumpBytes (m : Memory) (first last : Nat) : List Byte :=
  (List.range (last + 1 - first)).map fun k => readByte m (first + k)

/-- A list cut into lines of `n`: line `k` holds the elements from `n * k` to `n * k + n - 1`, as far as there are
any (R63, R64). -/
def cutLines {α : Type} (n : Nat) (l : List α) : List (List α) :=
  (List.range ((l.length + n - 1) / n)).map fun k => (l.drop (n * k)).take n

/-- `dump(start, end, format)` as lines of byte texts; a local failure if `start < 0`, `end >= size` or
`start > end` (R62). -/
def dump (s : State) (first last : Int) (fmt : DumpFormat) : Except LocalError (List (List (List Char))) :=
  if first < 0 ∨ (s.memSize : Int) ≤ last ∨ last < first then .error .outOfRange
  else .ok (cutLines (bytesPerLine fmt) ((dumpBytes s.mem first.toNat last.toNat).map (dumpByte fmt)))

/-- What a dump line holds before its first byte. A hexadecimal line begins with its first byte, as the document's
example shows (R63, 95 E10). No example shows a binary line, and the spec finds no rule on an address column (91 N11), so
what such a line begins with is a free value (log entry 7). -/
def lineStart (fmt : DumpFormat) (first last : Int) (k : Nat) : List Char :=
  match fmt with
  | .hexadecimal => []
  | .binary => Config.dumpLineStart first last k

/-- Line `k` of a dump as text: its bytes separated by single spaces (R63, R64), with free values where the spec leaves
the text open, before them (91 N11) and after them (93 U4). -/
def renderLine (fmt : DumpFormat) (first last : Int) (k : Nat) (tokens : List (List Char)) : List Char :=
  lineStart fmt first last k ++ List.intercalate [' '] tokens ++ Config.dumpLineEnd fmt first last k

/-- The text of a dump: what stands before its first line, a free value that may be empty (91 N11; log entry 7), and its
lines in order; or the local failure (R62). -/
def renderDump (s : State) (first last : Int) (fmt : DumpFormat) : Except LocalError (List Char) :=
  match dump s first last fmt with
  | .error e => .error e
  | .ok lines =>
    .ok (Config.dumpHeader fmt first last ++ (lines.zipIdx.map fun l => renderLine fmt first last l.2 l.1).flatten)

end Sys2Proof.Machine
end

