-- ==== Sys2Proof/Safety.lean ====
section
/-! DEFINITION. The terms the statements use: the invariant of the machine, the states that can run a cycle, the
states where no step exists, and "everything else is unchanged". -/

namespace Sys2Proof.Machine

/-- The invariant of every state: MEM_SIZE meets its constraint (spec/00_scope.md R8), the memory keeps its canonical
form, and `fault != NONE` exactly when `phase = HALTED` (spec/10_state.md R26). -/
structure State.Inv (s : State) : Prop where
  sizeOk : MemSizeOk s.memSize = true
  memWf : Memory.wf s.memSize s.mem
  faultIffHalted : s.fault ≠ none ↔ s.phase = .halted

/-- The machine is about to fetch and no stop is requested (spec/40_cycle.md R91). -/
structure State.Ready (s : State) : Prop where
  inFetch : s.phase = .fetch
  noStop : s.stopAsserted = false

/-- No step exists (spec/40_cycle.md R90). -/
def State.Terminal (s : State) : Prop := s.phase = .halted ∨ s.phase = .stopped

/-- `n` steps, stopping at the first one that answers no next state (spec/70_reset_and_hazards.md R202, R210). -/
def runSteps : Nat → State → Host.Outcome State Fault Refusal
  | 0, s => .next s
  | n + 1, s =>
    match step s with
    | .next t => runSteps n t
    | .fault r => .fault r
    | .refused r => .refused r

/-- Every byte of memory reads in `t` as in `s`. -/
def SameBytes (s t : State) : Prop := ∀ a, readByte t.mem a = readByte s.mem a

/-- Every byte outside the two at `ea` and `ea + 1` reads in `t` as in `s`. -/
def SameBytesOutside (ea : Nat) (s t : State) : Prop :=
  ∀ a, a ≠ ea → a ≠ ea + 1 → readByte t.mem a = readByte s.mem a

/-- The registers no instruction writes are unchanged: PC, IR, MEM_SIZE and the host's stop input. -/
structure SameControl (s t : State) : Prop where
  pc : t.pc = s.pc
  ir : t.ir = s.ir
  memSize : t.memSize = s.memSize
  stopReqs : t.stopReqs = s.stopReqs

/-- The cycle completed with `v` in AC and nothing else changed but the phase: no flag exists, `fault`, PC, IR and
memory are as before (spec/40_cycle.md R95). -/
structure WroteAc (v : Nat) (s t : State) : Prop where
  ac : t.ac.toNat = v
  phase : t.phase = .fetch
  fault : t.fault = s.fault
  mem : t.mem = s.mem
  control : SameControl s t

/-- The machine halted with fault `k`, and AC, memory, PC and IR are as before (spec/40_cycle.md R97). -/
structure HaltedWith (k : FaultKind) (s t : State) : Prop where
  phase : t.phase = .halted
  fault : t.fault = some k
  ac : t.ac = s.ac
  mem : t.mem = s.mem
  control : SameControl s t

/-- A 16-bit word is encoded with match `pattern` and mask 0xF000, and its low 12 bits are the operand. -/
def EncodedAs (pattern : Word) (mk : Operand → Instr) : Prop :=
  ∀ w : Word, w &&& 0xF000#16 = pattern →
    ∃ x : Operand, x.toNat = w.toNat % 4096 ∧ decode w = .ok (mk x)

end Sys2Proof.Machine
end

