-- ==== Sys2Proof/Certificates/Slice0/Obligations.lean ====
section
/-! DEFINITION. The statements of the model, each from numbered rules of spec/. Addresses, MEM_SIZE and register
values are read as natural numbers. Statements over states hold for every state, reachable or not, and for every
MEM_SIZE that the statement allows. The names and codes of the phases and fault kinds are the spec's own decision
(92 D5). -/

open Sys2Proof Sys2Proof.Machine

/-! ### Encoding -/

/-- R72: the fields of IR by number; the decoder reads IR alone; an unassigned opcode is reported to the execute
phase, which raises the fault. -/
def Obligations.DecodeLogicSplitsInstruction : Prop :=
  (∀ w : Word, (opcodeField w).toNat = w.toNat / 4096 % 16 ∧ (operandField w).toNat = w.toNat % 4096 ∧
    (decodeLogic w).opcode = opcodeField w ∧ (decodeLogic w).operand = operandField w) ∧
  (∀ s : State, (decodeLogic s.ir).op = .unknown → execute s = raise .unknownOpcode s)

/-- R81: the encoding `(opcode << 12) | operand` by number, and that it is a bijection between the pairs
(opcode, operand) and the words. -/
def Obligations.FieldsEncodeBijectively : Prop :=
  (∀ (o : Opcode) (x : Operand), (encodeFields o x).toNat = o.toNat * 4096 + x.toNat ∧
    opcodeField (encodeFields o x) = o ∧ operandField (encodeFields o x) = x) ∧
  (∀ w : Word, encodeFields (opcodeField w) (operandField w) = w)

/-- Decoding the word of any instruction gives the instruction back, every operand at every value, also from its two
bytes in memory order with anything after them (30_encoding.md R71, R75, R81, R82). -/
def Obligations.DecodeInvertsEncode : Prop :=
  ∀ (i : Instr) (rest : List Byte), decode (encode i) = .ok i ∧ decodeBytes (encodeBytes i ++ rest) = .ok (i, rest)

/-- Every word has one meaning: it decodes to `i` exactly when it is the word of `i`, and it is rejected, by its
opcode, exactly when its opcode is one of 0x6 to 0xE (30_encoding.md R75, R76, R80). -/
def Obligations.EveryWordHasOneMeaning : Prop :=
  ∀ w : Word, (∀ i, decode w = .ok i ↔ encode i = w) ∧
    (∀ e, decode w = .error e ↔ e = .unknownOpcode (opcodeField w) ∧ 6 ≤ w.toNat / 4096 ∧ w.toNat / 4096 ≤ 14)

/-- Words written out in 95_test_vectors.md (E7, E12, V2) decode to the instructions they stand for. -/
def Obligations.TableWordsDecode : Prop :=
  decode 0x0010#16 = .ok (.lda 0x010#12) ∧ decode 0x1010#16 = .ok (.sta 0x010#12) ∧
  decode 0x2003#16 = .ok (.add 0x003#12) ∧ decode 0x3FFF#16 = .ok (.mul 0xFFF#12) ∧
  decode 0x4000#16 = .ok (.div 0x000#12) ∧ decode 0x5007#16 = .ok (.mod 0x007#12) ∧
  decode 0xF005#16 = .ok (.sea 0x005#12) ∧ decode 0x7ABC#16 = .error (.unknownOpcode 0x7#4)

/-! ### alu_16bit -/

/-- R131, R132: `add` and `mul` wrap modulo 2^16 and never fail. -/
def Obligations.AluAddMulWrap : Prop :=
  ∀ a b : Word, (alu .add a b).dz = false ∧ (alu .add a b).y.toNat = (a.toNat + b.toNat) % 65536 ∧
    (alu .mul a b).dz = false ∧ (alu .mul a b).y.toNat = (a.toNat * b.toNat) % 65536

/-- R133: `div` fails `DivisionByZero` for a zero divisor, and otherwise gives the quotient rounded down, in
[0, a]. -/
def Obligations.AluDivQuotient : Prop :=
  ∀ a b : Word, ((alu .div a b).dz = true ↔ b.toNat = 0) ∧
    (b.toNat ≠ 0 → (alu .div a b).y.toNat = a.toNat / b.toNat ∧ (alu .div a b).y.toNat ≤ a.toNat)

/-- `mod` fails for a zero divisor; otherwise it gives the remainder, below the divisor, and
`div(a, b) * b + mod(a, b) = a` (R134, whose law the spec marks as derived). -/
def Obligations.AluModRemainder : Prop :=
  ∀ a b : Word, ((alu .mod a b).dz = true ↔ b.toNat = 0) ∧
    (b.toNat ≠ 0 → (alu .mod a b).y.toNat = a.toNat % b.toNat ∧ (alu .mod a b).y.toNat < b.toNat ∧
      (alu .div a b).y.toNat * b.toNat + (alu .mod a b).y.toNat = a.toNat)

/-! ### Memory -/

/-- R42, R43: a word read is the big-endian pair of bytes, at every address from 0 to MEM_SIZE - 2, odd ones too; it
fails exactly outside that range. -/
def Obligations.ReadWordContract : Prop :=
  ∀ (size : Nat) (m : Memory) (a : Int), 2 ≤ size →
    (a < 0 ∨ a > (size : Int) - 2 → readWordAt size m a = none) ∧
    (0 ≤ a → a ≤ (size : Int) - 2 → ∃ w, readWordAt size m a = some w ∧
      w.toNat = (readByte m a.toNat).toNat * 256 + (readByte m (a.toNat + 1)).toNat)

/-- R44: a word write fails exactly outside the range; inside, it stores the high byte at `a`, the low byte at
`a + 1`, and mutates these two cells only. -/
def Obligations.WriteWordContract : Prop :=
  ∀ (size : Nat) (m : Memory) (a : Int) (v : Word), 2 ≤ size →
    (a < 0 ∨ a > (size : Int) - 2 → writeWordAt size m a v = none) ∧
    (0 ≤ a → a ≤ (size : Int) - 2 → ∃ m', writeWordAt size m a v = some m' ∧
      (readByte m' a.toNat).toNat = v.toNat / 256 ∧ (readByte m' (a.toNat + 1)).toNat = v.toNat % 256 ∧
      ∀ b, b ≠ a.toNat → b ≠ a.toNat + 1 → readByte m' b = readByte m b)

/-- R66: a word written in range is read back; outside it both operations fail. -/
def Obligations.WordRoundTrip : Prop :=
  ∀ (size : Nat) (m : Memory) (a : Int) (v : Word), 2 ≤ size →
    (0 ≤ a → a ≤ (size : Int) - 2 → ∃ m', writeWordAt size m a v = some m' ∧ readWordAt size m' a = some v) ∧
    (a < 0 ∨ a > (size : Int) - 2 → readWordAt size m a = none ∧ writeWordAt size m a v = none)

/-- The words that overlap a written one (R49, which the spec marks as derived): the one above starts with the low
byte written, the one below ends with the high byte written. -/
def Obligations.OverlappingWordsShareAByte : Prop :=
  ∀ (size : Nat) (m m' : Memory) (a : Nat) (v : Word), writeWord size m a v = some m' →
    (a + 3 ≤ size → readWord size m' (a + 1) = some (wordOfBytes (loByte v) (readByte m (a + 2)))) ∧
    (1 ≤ a → readWord size m' (a - 1) = some (wordOfBytes (readByte m (a - 1)) (hiByte v)))

/-- The model's canonical form is one per memory: two memories in it that read the same at every address are the
same data (20_memory.md section 1; the form is DESIGN CHOICE, log entry 10). -/
def Obligations.CanonicalMemoryIsUnique : Prop :=
  ∀ (size : Nat) (m m' : Memory), Memory.wf size m → Memory.wf size m' →
    (∀ a, readByte m a = readByte m' a) → m = m'

/-! ### Reset and the status registers -/

/-- Creation at any MEM_SIZE, and reset, which is creation at 4096 (10_state.md section 6; `phase`, `fault` and reset as
creation are the spec's own decisions D5 and D11). -/
def Obligations.ResetLeavesZeros : Prop :=
  State.reset = State.create 4096 ∧
  ∀ size, (State.create size).pc = 0 ∧ (State.create size).ir = 0 ∧ (State.create size).ac = 0 ∧
    (State.create size).phase = .fetch ∧ (State.create size).fault = none ∧ (State.create size).memSize = size ∧
    ∀ a, readByte (State.create size).mem a = 0

/-- The invariant holds right after creation at every legal MEM_SIZE, and right after reset. The canonical form it asks of the
memory is the model's (DESIGN CHOICE, log entry 10). -/
def Obligations.ResetMeetsInvariant : Prop :=
  (∀ size, MemSizeOk size = true → (State.create size).Inv) ∧ State.reset.Inv

/-- The codes of `phase` and `fault` are those of 10_state.md section 3 (the spec's own decision D5), every code of either
field is used, and the machine's outputs to the host show them (40_cycle.md R100). -/
def Obligations.StatusCodesAreOneToOne : Prop :=
  (∀ c : BitVec 2, ∃ p, phaseCode p = c ∧ ∀ q, phaseCode q = c → q = p) ∧
  (∀ c : BitVec 2, ∃ f, faultCode f = c ∧ ∀ g, faultCode g = c → g = f) ∧
  phaseCode .fetch = 0 ∧ phaseCode .execute = 1 ∧ phaseCode .halted = 2 ∧ phaseCode .stopped = 3 ∧
  faultCode none = 0 ∧ faultCode (some .outOfRange) = 1 ∧ faultCode (some .divisionByZero) = 2 ∧
  faultCode (some .unknownOpcode) = 3 ∧
  ∀ s, (controlOut s).phase = phaseCode s.phase ∧ (controlOut s).fault = faultCode s.fault

/-! ### The instructions -/

/-- R121 LDA: encoding; the load of a word at an address in range; `OutOfRange` above MEM_SIZE - 2, which at 4096 is
operand 0xFFF only, with AC and memory unchanged. -/
def Obligations.LdaLoadsWord : Prop :=
  EncodedAs 0x0000#16 .lda ∧
  ∀ (x : Operand) (s : State),
    (x.toNat + 2 ≤ s.memSize → ∃ t, exec (.lda x) s = .next t ∧
      WroteAc ((readByte s.mem x.toNat).toNat * 256 + (readByte s.mem (x.toNat + 1)).toNat) s t) ∧
    (s.memSize < x.toNat + 2 → ∃ t, exec (.lda x) s = .next t ∧ HaltedWith .outOfRange s t) ∧
    (s.memSize = 4096 → (s.memSize < x.toNat + 2 ↔ x = 0xFFF#12))

/-- STA in range completes (41_load_store.md section 3): encoding; AC's high byte at EA, its low byte at EA + 1, every
other byte and AC unchanged. -/
def Obligations.StaStoresWord : Prop :=
  EncodedAs 0x1000#16 .sta ∧
  ∀ (x : Operand) (s : State), x.toNat + 2 ≤ s.memSize →
    ∃ t, exec (.sta x) s = .next t ∧ (readByte t.mem x.toNat).toNat = s.ac.toNat / 256 ∧
      (readByte t.mem (x.toNat + 1)).toNat = s.ac.toNat % 256 ∧ SameBytesOutside x.toNat s t ∧
      t.ac = s.ac ∧ t.phase = .fetch ∧ t.fault = s.fault ∧ SameControl s t

/-- STA out of range halts with `OutOfRange`, AC and every byte unchanged. That no byte is written is the spec's own
decision D4 (20_memory.md R45; log entry 5). -/
def Obligations.StaOutOfRangeWritesNothing : Prop :=
  ∀ (x : Operand) (s : State), s.memSize < x.toNat + 2 →
    ∃ t, exec (.sta x) s = .next t ∧ HaltedWith .outOfRange s t

/-- R136 ADD: encoding; the sum modulo 2^16; no exception. -/
def Obligations.AddWraps : Prop :=
  EncodedAs 0x2000#16 .add ∧
  ∀ (x : Operand) (s : State), ∃ t, exec (.add x) s = .next t ∧ WroteAc ((s.ac.toNat + x.toNat) % 65536) s t

/-- R137 MUL: encoding; the product modulo 2^16; no exception. -/
def Obligations.MulWraps : Prop :=
  EncodedAs 0x3000#16 .mul ∧
  ∀ (x : Operand) (s : State), ∃ t, exec (.mul x) s = .next t ∧ WroteAc (s.ac.toNat * x.toNat % 65536) s t

/-- R138 DIV: encoding; the unsigned quotient for an operand that is not 0; `DivisionByZero` for operand 0, whatever
AC holds, with AC unchanged. -/
def Obligations.DivQuotientOrHalt : Prop :=
  EncodedAs 0x4000#16 .div ∧
  ∀ (x : Operand) (s : State),
    (x.toNat ≠ 0 → ∃ t, exec (.div x) s = .next t ∧ WroteAc (s.ac.toNat / x.toNat) s t) ∧
    (x.toNat = 0 → ∃ t, exec (.div x) s = .next t ∧ HaltedWith .divisionByZero s t)

/-- R139 MOD: encoding; the unsigned remainder for an operand that is not 0; `DivisionByZero` for operand 0, whatever
AC holds, with AC unchanged. -/
def Obligations.ModRemainderOrHalt : Prop :=
  EncodedAs 0x5000#16 .mod ∧
  ∀ (x : Operand) (s : State),
    (x.toNat ≠ 0 → ∃ t, exec (.mod x) s = .next t ∧ WroteAc (s.ac.toNat % x.toNat) s t) ∧
    (x.toNat = 0 → ∃ t, exec (.mod x) s = .next t ∧ HaltedWith .divisionByZero s t)

/-- R160 SEA: encoding; AC is the operand, whatever AC held; no exception. -/
def Obligations.SeaSetsAccumulator : Prop :=
  EncodedAs 0xF000#16 .sea ∧
  ∀ (x : Operand) (s : State), (∃ t, exec (.sea x) s = .next t ∧ WroteAc x.toNat s t) ∧
    ∀ v : Word, exec (.sea x) (s.writeAc v) = exec (.sea x) s

/-- The frame of LDA, ADD, MUL, DIV, MOD and SEA: AC is the only register that may change, `fault` only where the
instruction halts, and no byte of memory (10_state.md R22 to R24, 40_cycle.md R95). -/
def Obligations.NonStoringFrame : Prop :=
  ∀ (i : Instr) (s t : State), (∀ x, i ≠ .sta x) → exec i s = .next t →
    SameControl s t ∧ SameBytes s t ∧ (t.phase = .fetch → t.fault = s.fault) ∧ (t.phase = .halted → t.ac = s.ac) ∧
    (t.phase = .fetch ∨ t.phase = .halted)

/-- The frame of STA: no register changes, `fault` only where it halts, and no byte of memory outside the two at its
effective address (41_load_store.md section 3, 20_memory.md R53). -/
def Obligations.StaFrame : Prop :=
  ∀ (x : Operand) (s t : State), exec (.sta x) s = .next t →
    SameControl s t ∧ t.ac = s.ac ∧ SameBytesOutside (effectiveAddress x) s t ∧
    (t.phase = .fetch → t.fault = s.fault) ∧ (t.phase = .halted → SameBytes s t) ∧
    (t.phase = .fetch ∨ t.phase = .halted)

/-- Each instruction halts the machine exactly with the fault of its opcode and under that fault's condition, and ADD,
MUL and SEA never (60_exceptions.md section 1 and R178, which the spec marks as derived). -/
def Obligations.InstructionFaultKinds : Prop :=
  ∀ (i : Instr) (s t : State), exec i s = .next t →
    (t.phase = .halted ↔
      match i with
      | .lda x => s.memSize < x.toNat + 2
      | .sta x => s.memSize < x.toNat + 2
      | .div x => x.toNat = 0
      | .mod x => x.toNat = 0
      | .add _ => False
      | .mul _ => False
      | .sea _ => False) ∧
    (t.phase = .halted → t.fault =
      match i with
      | .lda _ => some .outOfRange
      | .sta _ => some .outOfRange
      | .div _ => some .divisionByZero
      | .mod _ => some .divisionByZero
      | .add _ => none
      | .mul _ => none
      | .sea _ => none)

/-! ### The fetch/execute cycle -/

/-- R91: a fetch in range writes IR with the word at PC and PC with PC + 2 modulo 2^16, enters EXECUTE, and writes
neither AC nor memory, whatever the word; above MEM_SIZE - 2 it raises `OutOfRange`. -/
def Obligations.FetchContract : Prop :=
  ∀ s : State,
    (s.pc.toNat + 2 ≤ s.memSize → ∃ t, fetch s = .next t ∧
      t.ir.toNat = (readByte s.mem s.pc.toNat).toNat * 256 + (readByte s.mem (s.pc.toNat + 1)).toNat ∧
      t.pc.toNat = (s.pc.toNat + 2) % 65536 ∧ t.phase = .execute ∧ t.ac = s.ac ∧ t.mem = s.mem ∧
      t.fault = s.fault ∧ t.memSize = s.memSize ∧ t.stopReqs = s.stopReqs) ∧
    (s.memSize < s.pc.toNat + 2 → fetch s = raise .outOfRange s)

/-- A step runs the instruction the bytes at PC decode to, after the fetch's writes of IR and PC; from EXECUTE it runs
the instruction IR holds (40_cycle.md R91, R95, R105; the fused step is DESIGN CHOICE, log entry 1). `State.sampled` is the model's reading of the stop input
(log entry 2). -/
def Obligations.StepRunsDecodedInstruction : Prop :=
  (∀ (s : State) (i : Instr), s.Ready → s.pc.toNat + 2 ≤ s.memSize →
    decodeBytes [readByte s.mem s.pc.toNat, readByte s.mem (s.pc.toNat + 1)] = .ok (i, []) →
    step s = exec i (s.sampled.fetched (encode i))) ∧
  (∀ (s : State) (i : Instr), s.phase = .execute → decode s.ir = .ok i → step s = exec i s)

/-- A step whose fetch is out of range halts with `OutOfRange`, PC, IR, AC and memory unchanged (40_cycle.md R92, which
the spec marks as derived; `State.sampled`, the used stop sample, is the model's, log entry 2). -/
def Obligations.FetchOutOfRangeHalts : Prop :=
  ∀ s : State, s.Ready → s.memSize < s.pc.toNat + 2 →
    ∃ t, step s = .next t ∧ HaltedWith .outOfRange s.sampled t

/-- A step that fetches a word of opcode 0x6 to 0xE halts with `UnknownOpcode`: IR holds the word, PC has advanced, AC
and memory are unchanged (60_exceptions.md R173, 90_conflicts.md C3; fetch and execute are one step, DESIGN CHOICE, log
entry 1). -/
def Obligations.UnknownOpcodeHalts : Prop :=
  ∀ (s : State) (w : Word), s.Ready → s.loadWord s.pc.toNat = some w → 6 ≤ w.toNat / 4096 → w.toNat / 4096 ≤ 14 →
    ∃ t, step s = .next t ∧ t.ir = w ∧ t.pc.toNat = (s.pc.toNat + 2) % 65536 ∧ t.phase = .halted ∧
      t.fault = some .unknownOpcode ∧ t.ac = s.ac ∧ t.mem = s.mem ∧ t.memSize = s.memSize

/-- A stop requested in FETCH ends the run before the fetch, and so before any fault of the fetch: `phase` is STOPPED
and nothing else changes but that the sample is used up (40_cycle.md R99, the spec's own decision D7; log entry 2). -/
def Obligations.StopPrecedesFetch : Prop :=
  ∀ s : State, s.phase = .fetch → s.stopAsserted = true →
    ∃ t, step s = .next t ∧ t.phase = .stopped ∧ t.fault = s.fault ∧ t.pc = s.pc ∧ t.ir = s.ir ∧ t.ac = s.ac ∧
      t.mem = s.mem ∧ t.memSize = s.memSize ∧ t.stopReqs = s.stopReqs.tail

/-- In EXECUTE the stop is not sampled: whatever the host requests, the step does the same (40_cycle.md R99, the spec's
own decision D7). -/
def Obligations.ExecuteIgnoresStop : Prop :=
  ∀ (s t : State) (l : List Bool), s.phase = .execute → step s = .next t →
    step { s with stopReqs := l } = .next { t with stopReqs := l }

/-- The machine has no step exactly in HALTED and STOPPED, a step never refuses, and from every other state it answers a
next state that is not in EXECUTE. That no step exists there is 40_cycle.md R90 and R97; that the model answers so with a
fault outcome is its own reading (DEDUCED, log entry 4). That no step ends in EXECUTE, where R90's single transition from
FETCH would, is the fused step, which R105 allows (DESIGN CHOICE, log entry 1). -/
def Obligations.NoStepExactlyWhenTerminal : Prop :=
  ∀ s : State, ((∃ r, step s = .fault r) ↔ s.Terminal) ∧ (∀ r, step s ≠ .refused r) ∧
    (¬ s.Terminal → ∃ t, step s = .next t ∧ t.phase ≠ .execute)

/-- A fault is precise: a step that halts the machine changes neither AC nor memory, and PC and IR are as before (the
fetch failed) or as the fetch wrote them (60_exceptions.md R175, the spec's own decision D6). That both can happen in one step is the fused step (R105; DESIGN
CHOICE, log entry 1). -/
def Obligations.FaultsArePrecise : Prop :=
  ∀ s t : State, step s = .next t → t.phase = .halted →
    t.ac = s.ac ∧ t.mem = s.mem ∧ t.memSize = s.memSize ∧
    ((t.pc = s.pc ∧ t.ir = s.ir) ∨ (s.phase = .fetch ∧ t.pc = s.pc + 2 ∧ s.loadWord s.pc.toNat = some t.ir))

/-- PC changes only in a fetch, by 2 modulo 2^16 (40_cycle.md R93, R103). -/
def Obligations.PcChangesOnlyByFetch : Prop :=
  ∀ s t : State, step s = .next t →
    t.pc = s.pc ∨ (s.phase = .fetch ∧ s.pc.toNat + 2 ≤ s.memSize ∧ t.pc.toNat = (s.pc.toNat + 2) % 65536)

/-- The fused step is the transitions of the state machine: from FETCH the fetch and, if it leads to EXECUTE, the
execute after it; from any other phase one transition (40_cycle.md R105; log entry 1). -/
def Obligations.StepRefinesTransitions : Prop :=
  ∀ s : State,
    (s.phase ≠ .fetch → step s = transition s) ∧
    (∀ t, s.phase = .fetch → transition s = .next t → t.phase = .execute → step s = transition t) ∧
    (∀ t, s.phase = .fetch → transition s = .next t → t.phase ≠ .execute → step s = .next t) ∧
    (s.phase = .fetch → ∃ t, transition s = .next t)

/-- The outcomes of a fused step from FETCH are the four of 40_cycle.md R105, which the spec marks as derived
(that the model's step is the fused one is DESIGN CHOICE, log entry 1; `State.sampled`, the used stop sample, is the
model's, log entry 2). -/
def Obligations.FusedStepOutcomes : Prop :=
  ∀ s : State, s.phase = .fetch → ∃ t, step s = .next t ∧
    ((t.phase = .fetch ∧ t.pc = s.pc + 2 ∧ s.loadWord s.pc.toNat = some t.ir) ∨
     (HaltedWith .outOfRange s.sampled t ∧ s.memSize < s.pc.toNat + 2) ∨
     (∃ k, t.phase = .halted ∧ t.fault = some k ∧ t.pc = s.pc + 2 ∧ s.loadWord s.pc.toNat = some t.ir ∧
       t.ac = s.ac ∧ t.mem = s.mem) ∨
     (s.stopAsserted = true ∧ t = s.sampled.writePhase .stopped))

/-- A store to the word at PC is what the very next step fetches and executes (20_memory.md R59, 70_reset_and_hazards.md
R206, which the spec marks as derived; the next step is a fused one, DESIGN CHOICE, log entry 1). -/
def Obligations.NextFetchSeesStore : Prop :=
  ∀ (x : Operand) (s : State), s.stopAsserted = false → s.pc.toNat = x.toNat → x.toNat + 2 ≤ s.memSize →
    ∃ t, exec (.sta x) s = .next t ∧ step t = execute (t.sampled.fetched s.ac)

/-! ### Invariants and whole runs -/

/-- Every step keeps the invariant: MEM_SIZE legal, memory canonical, `fault != NONE` exactly in HALTED (10_state.md R26, R27,
20_memory.md section 1; the canonical form is the model's, DESIGN CHOICE, log entry 10). -/
def Obligations.StepKeepsInvariant : Prop :=
  ∀ s t : State, s.Inv → step s = .next t → t.Inv

/-- PC stays even, and for MEM_SIZE up to 65535 it stays at most MEM_SIZE (10_state.md R24, 40_cycle.md R93). -/
def Obligations.PcStaysEvenAndBounded : Prop :=
  ∀ s t : State, step s = .next t →
    (s.pc.toNat % 2 = 0 → t.pc.toNat % 2 = 0) ∧
    (s.memSize ≤ 65535 → s.pc.toNat ≤ s.memSize → t.pc.toNat ≤ t.memSize)

/-- After `n` cycles from a start PC `p` it is `p + 2n`, still within memory, for MEM_SIZE up to 65535 (40_cycle.md
R101, which the spec marks as derived). A step is a cycle because it is fused (R105; DESIGN CHOICE, log entry 1). -/
def Obligations.PcAfterCycles : Prop :=
  ∀ (n : Nat) (s t : State), s.phase = .fetch → s.memSize ≤ 65535 → runSteps n s = .next t →
    t.phase = .fetch →
    t.pc.toNat = s.pc.toNat + 2 * n ∧ (n ≠ 0 → t.pc.toNat ≤ s.memSize)

/-- Every run ends: for MEM_SIZE up to 65535, from any state, after at most `(MEM_SIZE - PC) / 2 + 3` steps no step is
left (40_cycle.md R101, which the spec marks as derived). The bound counts fused steps (R105; DESIGN CHOICE, log entry 1), and
the fault outcome is the model's way to say that no step exists (DEDUCED, log entry 4). -/
def Obligations.EveryRunEnds : Prop :=
  ∀ s : State, s.memSize ≤ 65535 →
    ∃ r, runSteps ((s.memSize - s.pc.toNat) / 2 + 3) s = .fault r

/-- A run from PC = 0 whose cycles all complete makes MEM_SIZE / 2 fetches, and its next fetch halts it with
OUT_OF_RANGE, PC at the top of memory and IR as the last fetch left it, for MEM_SIZE up to 65535; at 4096 these are
2048 fetches and PC = 0x1000 (40_cycle.md R101, 70_reset_and_hazards.md R211, which the spec marks as derived). A step is a
cycle because it is fused (R105; DESIGN CHOICE, log entry 1). -/
def Obligations.CompletedRunHaltsAtTopOfMemory : Prop :=
  ∀ (n : Nat) (s u : State), s.phase = .fetch → s.memSize ≤ 65535 → s.pc = 0 → runSteps n s = .next u →
    u.Ready → u.memSize < u.pc.toNat + 2 →
    n = s.memSize / 2 ∧ ∃ t, step u = .next t ∧ t.phase = .halted ∧ t.fault = some .outOfRange ∧
      t.pc.toNat = 2 * (s.memSize / 2) ∧ t.ir = u.ir

/-! ### The host's collaborators and the sub-blocks' interfaces -/

/-- The program load: the k-th word is read back at `2k`, every byte from `2n` on is 0x00, and everything else is as
creation left it; a program of more than MEM_SIZE / 2 words is rejected (30_encoding.md R85, R87, 70_reset_and_hazards.md
R203; rejecting is the spec's own decision D12, and the memory's canonical form the model's, log entry 10). -/
def Obligations.LoaderPlacesWords : Prop :=
  ∀ (size : Nat) (ws : List Word),
    (2 * ws.length ≤ size → ∃ s, loadWords size ws = .ok s ∧
      (∀ (k : Nat) (w : Word), ws[k]? = some w → s.loadWord (2 * k) = some w) ∧
      (∀ a, 2 * ws.length ≤ a → readByte s.mem a = 0x00#8) ∧ s = (State.create size).writeMem s.mem ∧
      Memory.wf size s.mem) ∧
    (size < 2 * ws.length → loadWords size ws = .error .programTooLong)

/-- A line of a mnemonic, a space and a four-digit operand assembles to the instruction's word (30_encoding.md R83, R84;
the lexical rules are the spec's own decision D12). -/
def Obligations.SourceLineAssembles : Prop :=
  ∀ i : Instr, assembleLine (i.spelling ++ ' ' :: snapshotWord (zext16 i.operand)) = .ok [encode i]

/-- A source line is refused exactly when its mnemonic is none of the seven or its operand is above 0xFFF, and a line of
spaces and tabs assembles to no word (30_encoding.md R84, R85, the spec's own decision D12). -/
def Obligations.SourceLineRefusals : Prop :=
  (∀ l : SourceLine, assembleSource l = none ↔ (l.mnemonic ∉ mnemonicSet ∨ 0xFFF < l.value)) ∧
  (∀ line : List Char, (∀ c ∈ line, isSeparator c = true) → assembleLine line = .ok [])

/-- The snapshot writes a register as four digits 0-9, A-F whose hexadecimal value is the register's
(70_reset_and_hazards.md R209). -/
def Obligations.SnapshotIsFourUppercaseDigits : Prop :=
  ∀ w : Word, (snapshotWord w).length = 4 ∧ hexValueFrom 0 (snapshotWord w) = some w.toNat ∧
    ∀ c ∈ snapshotWord w, ('0' ≤ c ∧ c ≤ '9') ∨ ('A' ≤ c ∧ c ≤ 'F')

/-- A dump fails exactly for a range that starts below 0, reaches MEM_SIZE or is empty; otherwise its lines, joined, are
the texts of the bytes from first to last, token `k` that of the byte at `first + k`, each line but the last full
(20_memory.md R62 to R64, 90_conflicts.md C5). The text of a byte is `dumpByte`, and that is not the spec's word alone: in
the binary format its bits are written most significant first, which the spec takes from general knowledge (93 K2;
PRESUMED, log entry 7), and all its hexadecimal letters have one case, where the spec allows any (93 U4; DESIGN CHOICE, log
entry 7). -/
def Obligations.DumpWritesTheRange : Prop :=
  ∀ (s : State) (first last : Int) (fmt : DumpFormat),
    (dump s first last fmt = .error .outOfRange ↔ first < 0 ∨ last ≥ s.memSize ∨ first > last) ∧
    (∀ lines, dump s first last fmt = .ok lines →
      lines.flatten = (dumpBytes s.mem first.toNat last.toNat).map (dumpByte fmt) ∧
      lines.flatten.length = last.toNat - first.toNat + 1 ∧
      (∀ k, k < last.toNat - first.toNat + 1 →
        lines.flatten[k]? = some (dumpByte fmt (readByte s.mem (first.toNat + k)))) ∧
      (∀ (k : Nat) (l : List (List Char)), lines[k]? = some l → 0 < l.length ∧ l.length ≤ bytesPerLine fmt ∧
        (k + 1 < lines.length → l.length = bytesPerLine fmt)))

/-- A byte in a hexadecimal dump is two digits whose value is the byte's, whatever the case of the letters (20_memory.md
R63); in a binary dump it is eight characters, the one at place `j` the byte's bit `7 - j`. The order of the bits is the
spec's own from general knowledge (93 K2; PRESUMED, log entry 7). -/
def Obligations.DumpByteShowsItsValue : Prop :=
  ∀ b : Byte, (dumpByte .hexadecimal b).length = 2 ∧ hexValueFrom 0 (dumpByte .hexadecimal b) = some b.toNat ∧
    (dumpByte .binary b).length = 8 ∧
    ∀ j, j < 8 → (dumpByte .binary b)[j]? = some (if b.toNat / 2 ^ (7 - j) % 2 = 1 then '1' else '0')

/-- After any step from a state that meets the invariant, the host's error report names a fault exactly when the machine
is halted, and the step observer is called exactly when the cycle completed (70_reset_and_hazards.md R208, the spec's own
decision D14). That it gets nothing exactly in a terminal phase rests on the fused step, which never ends in EXECUTE (R105;
DESIGN CHOICE, log entry 1). -/
def Obligations.HostSeesFaultOrSnapshot : Prop :=
  ∀ s t : State, s.Inv → step s = .next t →
    (errorReport t = t.fault) ∧ (t.phase = .halted ↔ errorReport t ≠ none) ∧
    (t.phase = .fetch ↔ observe (step s) = some (snapshot t)) ∧ (observe (step s) = none ↔ t.Terminal)

/-- memory_word_access as a transaction: `oor` exactly above MEM_SIZE - 2; a READ changes no byte; a request with `oor`
changes no byte and reads no value; a WRITE then a READ of the same address gives the value (20_memory.md R46, the
spec's own decision D2). -/
def Obligations.MemoryUnitTransactions : Prop :=
  ∀ (size : Nat) (m : Memory) (addr v : Word), 2 ≤ size →
    (∀ req, (memoryWordAccess size m req addr v).oor = true ↔ addr.toNat > size - 2) ∧
    (memoryWordAccess size m .read addr v).mem = m ∧
    (∀ req, (memoryWordAccess size m req addr v).oor = true →
      (memoryWordAccess size m req addr v).mem = m ∧ (memoryWordAccess size m req addr v).rdata = none) ∧
    ((memoryWordAccess size m .write addr v).oor = false →
      (memoryWordAccess size (memoryWordAccess size m .write addr v).mem .read addr v).rdata = some v)

/-- fetch_unit drives the fetch: started in FETCH with no stop requested, its write enables and data are what the fetch
phase writes; it is not started otherwise (40_cycle.md R94, R100, the spec's own decision D2). -/
def Obligations.FetchUnitDrivesFetch : Prop :=
  ∀ s : State,
    let o := fetchUnit (controlOut s).start s.pc (memoryWordAccess s.memSize s.mem .read s.pc 0)
    (o.done = true ↔ s.Ready) ∧
    (s.Ready → o.oor = true → transition s = raise .outOfRange s.sampled ∧ o.irWrite = none ∧ o.pcWrite = none) ∧
    (s.Ready → o.oor = false → ∃ t, transition s = .next t ∧ o.irWrite = some t.ir ∧ o.pcWrite = some t.pc)
end

