-- ==== Sys2Proof/Laws/State.lean ====
section
/-! SUPPORT. What each field is after each update of the state, so that no proof unfolds a record update. -/

namespace Sys2Proof.Machine

@[simp] theorem State.writePc_pc (v : Word) (s : State) : (State.writePc v s).pc = v := rfl
@[simp] theorem State.writePc_ir (v : Word) (s : State) : (State.writePc v s).ir = s.ir := rfl
@[simp] theorem State.writePc_ac (v : Word) (s : State) : (State.writePc v s).ac = s.ac := rfl
@[simp] theorem State.writePc_mem (v : Word) (s : State) : (State.writePc v s).mem = s.mem := rfl
@[simp] theorem State.writePc_phase (v : Word) (s : State) : (State.writePc v s).phase = s.phase := rfl
@[simp] theorem State.writePc_fault (v : Word) (s : State) : (State.writePc v s).fault = s.fault := rfl
@[simp] theorem State.writePc_memSize (v : Word) (s : State) : (State.writePc v s).memSize = s.memSize := rfl
@[simp] theorem State.writePc_stopReqs (v : Word) (s : State) : (State.writePc v s).stopReqs = s.stopReqs := rfl

@[simp] theorem State.writeIr_pc (v : Word) (s : State) : (State.writeIr v s).pc = s.pc := rfl
@[simp] theorem State.writeIr_ir (v : Word) (s : State) : (State.writeIr v s).ir = v := rfl
@[simp] theorem State.writeIr_ac (v : Word) (s : State) : (State.writeIr v s).ac = s.ac := rfl
@[simp] theorem State.writeIr_mem (v : Word) (s : State) : (State.writeIr v s).mem = s.mem := rfl
@[simp] theorem State.writeIr_phase (v : Word) (s : State) : (State.writeIr v s).phase = s.phase := rfl
@[simp] theorem State.writeIr_fault (v : Word) (s : State) : (State.writeIr v s).fault = s.fault := rfl
@[simp] theorem State.writeIr_memSize (v : Word) (s : State) : (State.writeIr v s).memSize = s.memSize := rfl
@[simp] theorem State.writeIr_stopReqs (v : Word) (s : State) : (State.writeIr v s).stopReqs = s.stopReqs := rfl

@[simp] theorem State.writeAc_pc (v : Word) (s : State) : (State.writeAc v s).pc = s.pc := rfl
@[simp] theorem State.writeAc_ir (v : Word) (s : State) : (State.writeAc v s).ir = s.ir := rfl
@[simp] theorem State.writeAc_ac (v : Word) (s : State) : (State.writeAc v s).ac = v := rfl
@[simp] theorem State.writeAc_mem (v : Word) (s : State) : (State.writeAc v s).mem = s.mem := rfl
@[simp] theorem State.writeAc_phase (v : Word) (s : State) : (State.writeAc v s).phase = s.phase := rfl
@[simp] theorem State.writeAc_fault (v : Word) (s : State) : (State.writeAc v s).fault = s.fault := rfl
@[simp] theorem State.writeAc_memSize (v : Word) (s : State) : (State.writeAc v s).memSize = s.memSize := rfl
@[simp] theorem State.writeAc_stopReqs (v : Word) (s : State) : (State.writeAc v s).stopReqs = s.stopReqs := rfl

@[simp] theorem State.writeMem_pc (m : Memory) (s : State) : (State.writeMem m s).pc = s.pc := rfl
@[simp] theorem State.writeMem_ir (m : Memory) (s : State) : (State.writeMem m s).ir = s.ir := rfl
@[simp] theorem State.writeMem_ac (m : Memory) (s : State) : (State.writeMem m s).ac = s.ac := rfl
@[simp] theorem State.writeMem_mem (m : Memory) (s : State) : (State.writeMem m s).mem = m := rfl
@[simp] theorem State.writeMem_phase (m : Memory) (s : State) : (State.writeMem m s).phase = s.phase := rfl
@[simp] theorem State.writeMem_fault (m : Memory) (s : State) : (State.writeMem m s).fault = s.fault := rfl
@[simp] theorem State.writeMem_memSize (m : Memory) (s : State) : (State.writeMem m s).memSize = s.memSize := rfl
@[simp] theorem State.writeMem_stopReqs (m : Memory) (s : State) : (State.writeMem m s).stopReqs = s.stopReqs := rfl

@[simp] theorem State.writePhase_pc (p : Phase) (s : State) : (State.writePhase p s).pc = s.pc := rfl
@[simp] theorem State.writePhase_ir (p : Phase) (s : State) : (State.writePhase p s).ir = s.ir := rfl
@[simp] theorem State.writePhase_ac (p : Phase) (s : State) : (State.writePhase p s).ac = s.ac := rfl
@[simp] theorem State.writePhase_mem (p : Phase) (s : State) : (State.writePhase p s).mem = s.mem := rfl
@[simp] theorem State.writePhase_phase (p : Phase) (s : State) : (State.writePhase p s).phase = p := rfl
@[simp] theorem State.writePhase_fault (p : Phase) (s : State) : (State.writePhase p s).fault = s.fault := rfl
@[simp] theorem State.writePhase_memSize (p : Phase) (s : State) : (State.writePhase p s).memSize = s.memSize := rfl
@[simp] theorem State.writePhase_stopReqs (p : Phase) (s : State) : (State.writePhase p s).stopReqs = s.stopReqs := rfl

@[simp] theorem State.halt_pc (k : FaultKind) (s : State) : (State.halt k s).pc = s.pc := rfl
@[simp] theorem State.halt_ir (k : FaultKind) (s : State) : (State.halt k s).ir = s.ir := rfl
@[simp] theorem State.halt_ac (k : FaultKind) (s : State) : (State.halt k s).ac = s.ac := rfl
@[simp] theorem State.halt_mem (k : FaultKind) (s : State) : (State.halt k s).mem = s.mem := rfl
@[simp] theorem State.halt_phase (k : FaultKind) (s : State) : (State.halt k s).phase = .halted := rfl
@[simp] theorem State.halt_fault (k : FaultKind) (s : State) : (State.halt k s).fault = some k := rfl
@[simp] theorem State.halt_memSize (k : FaultKind) (s : State) : (State.halt k s).memSize = s.memSize := rfl
@[simp] theorem State.halt_stopReqs (k : FaultKind) (s : State) : (State.halt k s).stopReqs = s.stopReqs := rfl

@[simp] theorem State.sampled_pc (s : State) : (State.sampled s).pc = s.pc := rfl
@[simp] theorem State.sampled_ir (s : State) : (State.sampled s).ir = s.ir := rfl
@[simp] theorem State.sampled_ac (s : State) : (State.sampled s).ac = s.ac := rfl
@[simp] theorem State.sampled_mem (s : State) : (State.sampled s).mem = s.mem := rfl
@[simp] theorem State.sampled_phase (s : State) : (State.sampled s).phase = s.phase := rfl
@[simp] theorem State.sampled_fault (s : State) : (State.sampled s).fault = s.fault := rfl
@[simp] theorem State.sampled_memSize (s : State) : (State.sampled s).memSize = s.memSize := rfl
@[simp] theorem State.sampled_stopReqs (s : State) : (State.sampled s).stopReqs = s.stopReqs.tail := rfl

@[simp] theorem State.fetched_pc (w : Word) (s : State) : (State.fetched w s).pc = s.pc + 2#16 := rfl
@[simp] theorem State.fetched_ir (w : Word) (s : State) : (State.fetched w s).ir = w := rfl
@[simp] theorem State.fetched_ac (w : Word) (s : State) : (State.fetched w s).ac = s.ac := rfl
@[simp] theorem State.fetched_mem (w : Word) (s : State) : (State.fetched w s).mem = s.mem := rfl
@[simp] theorem State.fetched_phase (w : Word) (s : State) : (State.fetched w s).phase = .execute := rfl
@[simp] theorem State.fetched_fault (w : Word) (s : State) : (State.fetched w s).fault = s.fault := rfl
@[simp] theorem State.fetched_memSize (w : Word) (s : State) : (State.fetched w s).memSize = s.memSize := rfl
@[simp] theorem State.fetched_stopReqs (w : Word) (s : State) : (State.fetched w s).stopReqs = s.stopReqs := rfl

@[simp] theorem State.create_pc (size : Nat) : (State.create size).pc = 0x0000#16 := rfl
@[simp] theorem State.create_ir (size : Nat) : (State.create size).ir = 0x0000#16 := rfl
@[simp] theorem State.create_ac (size : Nat) : (State.create size).ac = 0x0000#16 := rfl
@[simp] theorem State.create_mem (size : Nat) : (State.create size).mem = [] := rfl
@[simp] theorem State.create_phase (size : Nat) : (State.create size).phase = .fetch := rfl
@[simp] theorem State.create_fault (size : Nat) : (State.create size).fault = none := rfl
@[simp] theorem State.create_memSize (size : Nat) : (State.create size).memSize = size := rfl
@[simp] theorem State.create_stopReqs (size : Nat) : (State.create size).stopReqs = [] := rfl

end Sys2Proof.Machine
end

