-- ==== Sys2Proof/Laws/Memory.lean ====
section
/-! SUPPORT. The laws of the memory: what a byte reads as after a byte or a word is written, and that every memory
operation keeps the canonical form. The reading laws hold of every list of cells, canonical or not. -/

namespace Sys2Proof.Machine

/-! ### Bytes -/

theorem readByte_eraseByte (m : Memory) (a a' : Nat) :
    readByte (eraseByte m a) a' = if a' = a then unlistedByte else readByte m a' := by
  induction m with
  | nil => simp [eraseByte, readByte]
  | cons c m ih =>
    obtain ⟨k, b⟩ := c
    by_cases hk : a = k
    · subst hk
      by_cases ha : a' = a
      · simpa [eraseByte, readByte, ha] using ih
      · simp [eraseByte, readByte, ih, ha]
    · by_cases ha' : a' = k
      · have : a' ≠ a := fun h => hk (h ▸ ha')
        simp [eraseByte, readByte, hk, ha', Ne.symm hk]
      · simp [eraseByte, readByte, hk, ha', ih]

theorem readByte_insertByte (m : Memory) (a : Nat) (v : Byte) (a' : Nat) :
    readByte (insertByte m a v) a' = if a' = a then v else readByte m a' := by
  induction m with
  | nil => simp [insertByte, readByte]
  | cons c m ih =>
    obtain ⟨k, b⟩ := c
    by_cases hlt : a < k
    · simp [insertByte, readByte, hlt]
    · by_cases hk : a = k
      · subst hk
        by_cases ha : a' = a <;> simp [insertByte, readByte, ha]
      · by_cases ha' : a' = k
        · have : k ≠ a := Ne.symm hk
          simp [insertByte, readByte, hlt, hk, ha', this]
        · simp [insertByte, readByte, hlt, hk, ha', ih]

/-- A byte written is read back, and every other byte reads as before. -/
theorem readByte_writeByte (m : Memory) (a : Nat) (v : Byte) (a' : Nat) :
    readByte (writeByte m a v) a' = if a' = a then v else readByte m a' := by
  unfold writeByte
  split
  · next h => rw [readByte_eraseByte, h]
  · exact readByte_insertByte m a v a'

theorem mem_of_mem_eraseByte {m : Memory} {a : Nat} {c : Host.Cell} (h : c ∈ eraseByte m a) : c ∈ m := by
  induction m with
  | nil => simp [eraseByte] at h
  | cons d m ih =>
    obtain ⟨k, b⟩ := d
    unfold eraseByte at h
    split at h
    · exact List.mem_cons_of_mem _ (ih h)
    · rcases List.mem_cons.mp h with h | h
      · exact h ▸ List.mem_cons_self
      · exact List.mem_cons_of_mem _ (ih h)

theorem eraseByte_wf {size : Nat} {m : Memory} (a : Nat) (h : Memory.wf size m) : Memory.wf size (eraseByte m a) := by
  obtain ⟨hs, he⟩ := h
  refine ⟨?_, fun c hc => he c (mem_of_mem_eraseByte hc)⟩
  clear he
  induction m with
  | nil => simp [eraseByte]
  | cons d m ih =>
    obtain ⟨k, b⟩ := d
    obtain ⟨hd, hm⟩ := List.pairwise_cons.mp hs
    unfold eraseByte
    split
    · exact ih hm
    · exact List.pairwise_cons.mpr ⟨fun c hc => hd c (mem_of_mem_eraseByte hc), ih hm⟩

theorem mem_insertByte {m : Memory} {a : Nat} {v : Byte} {c : Host.Cell} (h : c ∈ insertByte m a v) :
    c = (a, v) ∨ c ∈ m := by
  induction m with
  | nil => simpa [insertByte] using h
  | cons d m ih =>
    obtain ⟨k, b⟩ := d
    unfold insertByte at h
    split at h
    · exact List.mem_cons.mp h
    · split at h
      · rcases List.mem_cons.mp h with h | h
        · exact .inl h
        · exact .inr (List.mem_cons_of_mem _ h)
      · rcases List.mem_cons.mp h with h | h
        · exact .inr (h ▸ List.mem_cons_self)
        · exact (ih h).imp_right (List.mem_cons_of_mem _)

theorem insertByte_wf {size : Nat} {m : Memory} {a : Nat} {v : Byte} (ha : a < size) (hv : v ≠ unlistedByte)
    (h : Memory.wf size m) : Memory.wf size (insertByte m a v) := by
  obtain ⟨hs, he⟩ := h
  refine ⟨?_, fun c hc => (mem_insertByte hc).elim (fun h => h ▸ ⟨ha, hv⟩) (he c)⟩
  clear he
  induction m with
  | nil => simp [insertByte]
  | cons d m ih =>
    obtain ⟨k, b⟩ := d
    obtain ⟨hd, hm⟩ := List.pairwise_cons.mp hs
    unfold insertByte
    split
    · next hlt =>
      refine List.pairwise_cons.mpr ⟨fun c hc => ?_, hs⟩
      rcases List.mem_cons.mp hc with rfl | hc
      · exact hlt
      · exact Nat.lt_trans hlt (hd c hc)
    · split
      · next hk => exact List.pairwise_cons.mpr ⟨fun c hc => hk ▸ hd c hc, hm⟩
      · next hlt hk =>
        refine List.pairwise_cons.mpr ⟨fun c hc => ?_, ih hm⟩
        rcases mem_insertByte hc with rfl | hc
        · show k < a
          omega
        · exact hd c hc

/-- Writing a byte of the memory keeps the canonical form. -/
theorem writeByte_wf {size : Nat} {m : Memory} {a : Nat} (v : Byte) (ha : a < size) (h : Memory.wf size m) :
    Memory.wf size (writeByte m a v) := by
  unfold writeByte
  split
  · exact eraseByte_wf a h
  · next hv => exact insertByte_wf ha hv h

/-! ### Words -/

theorem oor_eq_false {size a : Nat} : oor size a = false ↔ a + 2 ≤ size := by simp [oor]

theorem oor_eq_true {size a : Nat} : oor size a = true ↔ size < a + 2 := by simp [oor]

/-- Everything `readWord` can answer. -/
theorem readWord_eq_some {size : Nat} {m : Memory} {a : Nat} {w : Word} :
    readWord size m a = some w ↔ a + 2 ≤ size ∧ w = wordOfBytes (readByte m a) (readByte m (a + 1)) := by
  unfold readWord
  by_cases h : oor size a = true
  · have := oor_eq_true.mp h
    simp [h]
    omega
  · have h' := oor_eq_false.mp (Bool.eq_false_iff.mpr h)
    simp [h, h', eq_comm]

theorem readWord_eq_none {size : Nat} {m : Memory} {a : Nat} : readWord size m a = none ↔ size < a + 2 := by
  simp [readWord, oor]

/-- Everything `writeWord` can do, in the bytes it leaves. -/
theorem writeWord_spec {size : Nat} {m m' : Memory} {a : Nat} {v : Word} (h : writeWord size m a v = some m') :
    a + 2 ≤ size ∧ ∀ b, readByte m' b =
      if b = a + 1 then loByte v else if b = a then hiByte v else readByte m b := by
  unfold writeWord at h
  split at h
  · cases h
  · next hr =>
    cases h
    refine ⟨oor_eq_false.mp (Bool.eq_false_iff.mpr hr), fun b => ?_⟩
    rw [readByte_writeByte, readByte_writeByte]

theorem writeWord_eq_none {size : Nat} {m : Memory} {a : Nat} {v : Word} :
    writeWord size m a v = none ↔ size < a + 2 := by
  simp [writeWord, oor]

/-- Writing a word keeps the canonical form. -/
theorem writeWord_wf {size : Nat} {m m' : Memory} {a : Nat} {v : Word} (hm : Memory.wf size m)
    (h : writeWord size m a v = some m') : Memory.wf size m' := by
  have hr := (writeWord_spec h).1
  unfold writeWord at h
  split at h
  · cases h
  · cases h
    exact writeByte_wf _ (by omega) (writeByte_wf _ (by omega) hm)

/-! ### Splitting and joining -/

@[simp] theorem hiByte_wordOfBytes (hi lo : Byte) : hiByte (wordOfBytes hi lo) = hi := by
  ext i hi'
  have h16 : 8 + i < 16 := by omega
  have hlt : i < 16 := by omega
  simp [hiByte, wordOfBytes, h16, hlt, BitVec.getLsbD_eq_getElem hi']

@[simp] theorem loByte_wordOfBytes (hi lo : Byte) : loByte (wordOfBytes hi lo) = lo := by
  ext i hi'
  simp [loByte, wordOfBytes]

@[simp] theorem wordOfBytes_hiByte_loByte (w : Word) : wordOfBytes (hiByte w) (loByte w) = w := by
  ext i hi'
  simp [hiByte, loByte, wordOfBytes]
  by_cases h : i < 8
  · simp [h, BitVec.getLsbD_eq_getElem hi']
  · have h8 : i - 8 < 8 := by omega
    have hadd : 8 + (i - 8) = i := by omega
    simp [h, h8, hadd, hi']

/-! ### The memory of a new machine -/

@[simp] theorem readByte_create (size a : Nat) : readByte (State.create size).mem a = unlistedByte := rfl

/-- The memory right after reset has the canonical form. -/
theorem reset_mem_wf : Memory.wf State.reset.memSize State.reset.mem := by decide

end Sys2Proof.Machine
end

