-- ==== Sys2Proof/Laws/Ops.lean ====
section
/-! SUPPORT. One lemma per shared operation that says everything it can do, for the proofs to cite. -/

namespace Sys2Proof.Machine

variable {s t : State}

@[simp] theorem raise_eq_next {k : FaultKind} : raise k s = .next t ↔ t = s.halt k := by
  simp [raise, eq_comm]

@[simp] theorem complete_eq_next : complete s = .next t ↔ t = s.writePhase .fetch := by
  simp [complete, eq_comm]

@[simp] theorem effectiveAddress_eq (x : Operand) : effectiveAddress x = x.toNat := by
  have := x.isLt
  simp [effectiveAddress, zext16]
  omega

@[simp] theorem immediate_toNat (x : Operand) : (immediate x).toNat = x.toNat := effectiveAddress_eq x

theorem immediate_eq_zero {x : Operand} : immediate x = 0x0000#16 ↔ x = 0x000#12 := by
  rw [← BitVec.toNat_inj, ← BitVec.toNat_inj, immediate_toNat]
  rfl

/-! ### Word accesses -/

/-- What a store in a state leaves: the stored bytes, every other byte, and every other field. -/
theorem storeWord_spec {a : Nat} {v : Word} (h : s.storeWord a v = some t) :
    ∃ m, writeWord s.memSize s.mem a v = some m ∧ t = s.writeMem m := by
  unfold State.storeWord at h
  split at h
  · cases h
  · next m hm => exact ⟨m, hm, (Option.some.inj h).symm⟩

theorem storeWord_eq_none {a : Nat} {v : Word} : s.storeWord a v = none ↔ s.memSize < a + 2 := by
  rw [← writeWord_eq_none (m := s.mem) (v := v)]
  unfold State.storeWord
  split <;> simp_all

theorem loadWord_eq_none {a : Nat} : s.loadWord a = none ↔ s.memSize < a + 2 := readWord_eq_none

theorem loadWord_eq_some {a : Nat} {w : Word} :
    s.loadWord a = some w ↔ a + 2 ≤ s.memSize ∧ w = wordOfBytes (readByte s.mem a) (readByte s.mem (a + 1)) :=
  readWord_eq_some

/-! ### The ALU -/

@[simp] theorem aluAdd_toNat (a b : Word) : (aluAdd a b).toNat = (a.toNat + b.toNat) % 65536 := by
  simp [aluAdd]

@[simp] theorem aluMul_toNat (a b : Word) : (aluMul a b).toNat = (a.toNat * b.toNat) % 65536 := by
  simp [aluMul]

@[simp] theorem aluDiv_toNat (a b : Word) : (aluDiv a b).toNat = a.toNat / b.toNat := by
  have := Nat.div_le_self a.toNat b.toNat
  have := a.isLt
  simp only [aluDiv, BitVec.toNat_ofNat]
  exact Nat.mod_eq_of_lt (by omega)

@[simp] theorem aluMod_toNat (a b : Word) : (aluMod a b).toNat = a.toNat % b.toNat := by
  have := Nat.mod_le a.toNat b.toNat
  have := a.isLt
  simp only [aluMod, BitVec.toNat_ofNat]
  exact Nat.mod_eq_of_lt (by omega)

/-- Everything an arithmetic instruction can do. -/
theorem aluInstr_cases {op : AluOp} {x : Operand} (h : aluInstr op x s = .next t) :
    (dz op (immediate x) = true ∧ t = s.halt .divisionByZero) ∨
    (dz op (immediate x) = false ∧ t = (s.writeAc (aluResult op s.ac (immediate x))).writePhase .fetch) := by
  unfold aluInstr at h
  cases hz : dz op (immediate x) <;> simp [alu, hz] at h
  · exact .inr ⟨rfl, h⟩
  · exact .inl ⟨rfl, h⟩

/-- The shape of everything an instruction can do: it raises a fault of its own and changes nothing else, it writes
AC, or it is STA and writes memory. -/
theorem exec_cases {i : Instr} (h : exec i s = .next t) :
    (∃ k, t = s.halt k) ∨ (∃ v, t = (s.writeAc v).writePhase .fetch) ∨
    (∃ x m, i = .sta x ∧ writeWord s.memSize s.mem x.toNat s.ac = some m ∧ t = (s.writeMem m).writePhase .fetch) := by
  have hAlu : ∀ {op x}, aluInstr op x s = .next t →
      (∃ k, t = s.halt k) ∨ (∃ v, t = (s.writeAc v).writePhase .fetch) := fun h =>
    (aluInstr_cases h).imp (fun h => ⟨_, h.2⟩) (fun h => ⟨_, h.2⟩)
  cases i with
  | lda x =>
    simp only [exec, execLda] at h
    split at h
    · exact .inl ⟨_, raise_eq_next.mp h⟩
    · exact .inr (.inl ⟨_, complete_eq_next.mp h⟩)
  | sta x =>
    simp only [exec, execSta, effectiveAddress_eq] at h
    split at h
    · exact .inl ⟨_, raise_eq_next.mp h⟩
    · next u hu =>
      obtain ⟨m, hm, rfl⟩ := storeWord_spec hu
      exact .inr (.inr ⟨x, m, rfl, hm, complete_eq_next.mp h⟩)
  | add x => exact (hAlu (op := .add) h).imp_right .inl
  | mul x => exact (hAlu (op := .mul) h).imp_right .inl
  | div x => exact (hAlu (op := .div) h).imp_right .inl
  | mod x => exact (hAlu (op := .mod) h).imp_right .inl
  | sea x => exact .inr (.inl ⟨_, complete_eq_next.mp h⟩)

/-- Every instruction answers a next state. -/
theorem exec_total (i : Instr) (s : State) : ∃ t, exec i s = .next t := by
  have hAlu : ∀ op x, ∃ t, aluInstr op x s = .next t := fun op x => by
    simp only [aluInstr]
    split <;> exact ⟨_, rfl⟩
  cases i with
  | lda x =>
    simp only [exec, execLda]
    split <;> exact ⟨_, rfl⟩
  | sta x =>
    simp only [exec, execSta]
    split <;> exact ⟨_, rfl⟩
  | add x => exact hAlu .add x
  | mul x => exact hAlu .mul x
  | div x => exact hAlu .div x
  | mod x => exact hAlu .mod x
  | sea x => exact ⟨_, rfl⟩

end Sys2Proof.Machine
end

