-- ==== Sys2Proof/Laws/Cycle.lean ====
section
/-! SUPPORT. What the phases of the state machine do, one lemma per operation. -/

namespace Sys2Proof.Machine

variable {s t : State}

/-- Everything an execute phase can do: it runs the instruction IR holds, or raises `UnknownOpcode`. -/
theorem execute_cases (h : execute s = .next t) :
    (∃ i, decode s.ir = .ok i ∧ exec i s = .next t) ∨
    (∃ e, decode s.ir = .error e ∧ t = s.halt .unknownOpcode) := by
  unfold execute at h
  split at h
  · next i hi => exact .inl ⟨i, hi, h⟩
  · next e he => exact .inr ⟨e, he, raise_eq_next.mp h⟩

theorem execute_total (s : State) : ∃ t, execute s = .next t := by
  unfold execute
  split
  · exact exec_total _ s
  · exact ⟨_, rfl⟩

theorem fetchWord_eq_none : s.fetchWord = none ↔ s.memSize < s.pc.toNat + 2 := loadWord_eq_none

theorem fetchWord_eq_some {w : Word} : s.fetchWord = some w ↔ s.pc.toNat + 2 ≤ s.memSize ∧
    w = wordOfBytes (readByte s.mem s.pc.toNat) (readByte s.mem (s.pc.toNat + 1)) := loadWord_eq_some

@[simp] theorem fetchWord_sampled : s.sampled.fetchWord = s.fetchWord := rfl

/-- Everything a fetch phase can do. -/
theorem fetch_cases (h : fetch s = .next t) :
    (s.fetchWord = none ∧ t = s.halt .outOfRange) ∨ (∃ w, s.fetchWord = some w ∧ t = s.fetched w) := by
  unfold fetch at h
  split at h
  · next hw => exact .inl ⟨hw, raise_eq_next.mp h⟩
  · next w hw => exact .inr ⟨w, hw, by simpa using h.symm⟩

/-- Everything a step can do: it stops, its fetch fails, or it executes, after a fetch or from EXECUTE. -/
theorem step_cases (h : step s = .next t) :
    (s.phase = .fetch ∧ s.stopAsserted = true ∧ t = s.sampled.writePhase .stopped) ∨
    (s.phase = .fetch ∧ s.stopAsserted = false ∧ s.fetchWord = none ∧ t = s.sampled.halt .outOfRange) ∨
    (s.phase = .fetch ∧ s.stopAsserted = false ∧
      ∃ w, s.fetchWord = some w ∧ execute (s.sampled.fetched w) = .next t) ∨
    (s.phase = .execute ∧ execute s = .next t) := by
  unfold step runCycle at h
  split at h
  · next hp =>
    split at h
    · next hs => exact .inl ⟨hp, hs, by simpa using h.symm⟩
    · next hs =>
      have hs' : s.stopAsserted = false := by simpa using hs
      split at h
      · next hw => exact .inr (.inl ⟨hp, hs', hw, raise_eq_next.mp h⟩)
      · next w hw => exact .inr (.inr (.inl ⟨hp, hs', w, hw, h⟩))
  · next hp => exact .inr (.inr (.inr ⟨hp, h⟩))
  · cases h
  · cases h

end Sys2Proof.Machine
end

