-- ==== Sys2Proof/Laws/Observer.lean ====
section
/-! SUPPORT. What the text of a dump can be, beside what the spec leaves open in it. -/

namespace Sys2Proof.Machine

/-- Everything `renderDump` can answer: it fails as the dump fails, or writes the dump's lines after the header. -/
theorem renderDump_cases (s : State) (first last : Int) (fmt : DumpFormat) :
    (∃ e, dump s first last fmt = .error e ∧ renderDump s first last fmt = .error e) ∨
    (∃ lines, dump s first last fmt = .ok lines ∧ renderDump s first last fmt =
      .ok (Config.dumpHeader fmt first last ++ (lines.zipIdx.map fun l => renderLine fmt first last l.2 l.1).flatten)) := by
  unfold renderDump
  cases dump s first last fmt with
  | error e => exact .inl ⟨e, rfl, rfl⟩
  | ok lines => exact .inr ⟨lines, rfl, rfl⟩

/-- A hexadecimal line begins with its first byte. -/
theorem renderLine_hexadecimal (first last : Int) (k : Nat) (tokens : List (List Char)) :
    renderLine .hexadecimal first last k tokens =
      List.intercalate [' '] tokens ++ Config.dumpLineEnd .hexadecimal first last k := rfl

end Sys2Proof.Machine
end

