-- ==== Sys2Proof/Laws/PerInstr.lean ====
section
/-! SUPPORT. What the encoder writes, per instruction: the fields of the encoded word are the instruction's opcode
and operand (spec/30_encoding.md R72, R81). -/

namespace Sys2Proof.Laws.EncodesFields

/-- The word of `i` holds the opcode of `i` in bits 15:12 and its operand in bits 11:0. -/
def Statement (i : Instr) : Prop :=
  opcodeField (encode i) = opcodeOf i ∧ operandField (encode i) = i.operand

theorem opcodeField_encodeFields (o : Opcode) (x : Operand) : opcodeField (encodeFields o x) = o := by
  ext i hi
  interval_cases i <;> simp [opcodeField, encodeFields, BitVec.getLsbD_eq_getElem]

theorem operandField_encodeFields (o : Opcode) (x : Operand) : operandField (encodeFields o x) = x := by
  ext i hi
  interval_cases i <;> simp [operandField, encodeFields]

theorem lda (x : Operand) : Statement (.lda x) := ⟨opcodeField_encodeFields _ _, operandField_encodeFields _ _⟩
theorem sta (x : Operand) : Statement (.sta x) := ⟨opcodeField_encodeFields _ _, operandField_encodeFields _ _⟩
theorem add (x : Operand) : Statement (.add x) := ⟨opcodeField_encodeFields _ _, operandField_encodeFields _ _⟩
theorem mul (x : Operand) : Statement (.mul x) := ⟨opcodeField_encodeFields _ _, operandField_encodeFields _ _⟩
theorem div (x : Operand) : Statement (.div x) := ⟨opcodeField_encodeFields _ _, operandField_encodeFields _ _⟩
theorem mod (x : Operand) : Statement (.mod x) := ⟨opcodeField_encodeFields _ _, operandField_encodeFields _ _⟩
theorem sea (x : Operand) : Statement (.sea x) := ⟨opcodeField_encodeFields _ _, operandField_encodeFields _ _⟩

end Sys2Proof.Laws.EncodesFields
end

