-- ==== Sys2Proof/Tests/Slice0.lean ====
section
/-! SUPPORT. The model's own tests. Expected results are those of spec/95_test_vectors.md (vector in each comment),
spec/30_encoding.md and the corner cases of the instruction rules. The theorems named `witness_` show that the hypotheses of
the statements in Certificates/Slice0/Obligations.lean can be met, at the boundary values of their clauses. -/

namespace Sys2Proof.Tests
open Sys2Proof.Machine

/-! ### Helpers -/

/-- A reset machine with AC and some memory cells set. -/
def st (ac : Word) (m : Memory := []) : State := { State.reset with ac := ac, mem := m }

/-- What `f` reads of the next state, if there is one. -/
def after {α : Type} (o : Host.Outcome State Fault Refusal) (f : State → α) : Option α :=
  match o with
  | .next t => some (f t)
  | .fault _ => none
  | .refused _ => none

/-- The memory the program load leaves for a list of words at MEM_SIZE = 4096. -/
def loaded (ws : List Word) : State := { State.reset with mem := (loadFrom 4096 0 [] ws).getD [] }

/-! ### WellFormed: an ill-formed term for each check -/

theorem test_wellFormed_opcode_6_not_assigned : assignedOpcodes.contains 0x6#4 = false := by decide
theorem test_wellFormed_opcode_E_not_assigned : assignedOpcodes.contains 0xE#4 = false := by decide
theorem test_wellFormed_mnemonic_refused : (SourceLine.mk ['S', 'U', 'B'] 1).WellFormed = false := by decide
theorem test_wellFormed_operand_refused : (SourceLine.mk ['A', 'D', 'D'] 0x1000).WellFormed = false := by decide
theorem test_wellFormed_line_accepted : (SourceLine.mk ['A', 'D', 'D'] 0xFFF).WellFormed = true := by decide
theorem test_wellFormed_memSize_1_refused : MemSizeOk 1 = false := by decide
theorem test_wellFormed_memSize_65537_refused : MemSizeOk 65537 = false := by decide
theorem test_wellFormed_memSize_default : MemSizeOk Config.memSize = true := by decide
/-- An `Instr` has 12 operand bits, so none is ill-formed (R77). -/
theorem test_wellFormed_every_instr (i : Instr) : i.WellFormed = true := by
  have := i.operand.isLt
  simp only [Instr.WellFormed, decide_eq_true_eq]
  omega

/-- The assigned opcodes are those that decode to an instruction (R75, R76). -/
theorem test_assigned_opcodes_decode (o : Opcode) : assignedOpcodes.contains o = true ↔ decodeOp o ≠ .unknown := by
  revert o
  decide

/-! ### Decode: a word of each instruction written out from its encoding (R75, V2, E12) -/

theorem test_decode_lda : decode 0b0000111111111111#16 = .ok (.lda 0xFFF#12) := by decide
theorem test_decode_sta : decode 0b0001000000010000#16 = .ok (.sta 0x010#12) := by decide
theorem test_decode_add : decode 0b0010000000000011#16 = .ok (.add 0x003#12) := by decide
theorem test_decode_mul : decode 0b0011111111111111#16 = .ok (.mul 0xFFF#12) := by decide
theorem test_decode_div : decode 0b0100000000000000#16 = .ok (.div 0x000#12) := by decide
theorem test_decode_mod : decode 0b0101000000000111#16 = .ok (.mod 0x007#12) := by decide
theorem test_decode_sea : decode 0b1111111111111111#16 = .ok (.sea 0xFFF#12) := by decide
theorem test_decode_unknown_6 : decode 0x6000#16 = .error (.unknownOpcode 0x6#4) := by decide
theorem test_decode_unknown_E : decode 0xEFFF#16 = .error (.unknownOpcode 0xE#4) := by decide
/-- R71: `ADD 0x003` is stored as bytes 0x20, 0x03. -/
theorem test_decode_bytes : decodeBytes [0x20#8, 0x03#8, 0xAA#8] = .ok (.add 0x003#12, [0xAA#8]) := by decide
theorem test_decode_truncated : decodeBytes [0x20#8] = .error .truncated := by decide
theorem test_encode_bytes : encodeBytes (.add 0x003#12) = [0x20#8, 0x03#8] := by decide
theorem test_decodeTableWord_mod : decodeTableWord 16 0x5ABC = some (.mod 0xABC#12) := by decide
theorem test_decodeTableWord_unknown : decodeTableWord 16 0x9000 = none := by decide

/-! ### Memory (V1) -/

/-- V1 #2: an odd address. -/
theorem test_readWord_odd : readWord 4096 [(0x020, 0x12#8), (0x021, 0x34#8)] 0x021 = some 0x3400#16 := by decide
/-- V1 #3. -/
theorem test_writeWord_big_endian : writeWord 4096 [] 0x011 0xABCD#16 = some [(0x011, 0xAB#8), (0x012, 0xCD#8)] := by decide
/-- V1 #8. -/
theorem test_readWord_top : readWord 4096 [(0xFFE, 0x01#8), (0xFFF, 0x02#8)] 0xFFF = none := by decide
/-- V1 #12. -/
theorem test_readWord_smallest_memory : readWord 2 [] 1 = none := by decide
/-- Writing the value an unlisted address reads as takes the entry out. -/
theorem test_writeWord_zero_removes : writeWord 4096 [(0x010, 0x12#8), (0x011, 0x34#8)] 0x010 0x0000#16 = some [] := by decide

/-! ### The instructions -/

/-- V5 #4. -/
theorem test_lda_odd : after (exec (.lda 0x011#12) (st 0x1111#16 [(0x011, 0xAB#8), (0x012, 0xCD#8)])) (·.ac) = some 0xABCD#16 := by decide
/-- V5 #3. -/
theorem test_lda_out_of_range : after (exec (.lda 0xFFF#12) (st 0x1111#16)) (fun t => (t.ac, t.phase, t.fault))
    = some (0x1111#16, .halted, some .outOfRange) := by decide
/-- V6 #2. -/
theorem test_sta_top : after (exec (.sta 0xFFE#12) (st 0xABCD#16)) (·.mem) = some [(0xFFE, 0xAB#8), (0xFFF, 0xCD#8)] := by decide
/-- V6 #3. -/
theorem test_sta_out_of_range : after (exec (.sta 0xFFF#12) (st 0xABCD#16)) (fun t => (t.mem, t.phase, t.fault))
    = some ([], .halted, some .outOfRange) := by decide
/-- V7 #3. -/
theorem test_add_wraps : after (exec (.add 0xFFF#12) (st 0xFFFF#16)) (·.ac) = some 0x0FFE#16 := by decide
/-- V7 #7. -/
theorem test_mul_wraps : after (exec (.mul 0xFFF#12) (st 0xFFFF#16)) (·.ac) = some 0xF001#16 := by decide
/-- V7 #10. -/
theorem test_div_unsigned : after (exec (.div 0xFFF#12) (st 0xFFFF#16)) (·.ac) = some 0x0010#16 := by decide
/-- V7 #13: the check is on the divisor alone. -/
theorem test_div_zero : after (exec (.div 0x000#12) (st 0x0000#16)) (fun t => (t.ac, t.phase, t.fault))
    = some (0x0000#16, .halted, some .divisionByZero) := by decide
/-- V7 #15. -/
theorem test_mod_unsigned : after (exec (.mod 0xFFF#12) (st 0xFFFF#16)) (·.ac) = some 0x000F#16 := by decide
/-- V7 #18. -/
theorem test_mod_zero : after (exec (.mod 0x000#12) (st 0x1234#16)) (fun t => (t.ac, t.phase, t.fault))
    = some (0x1234#16, .halted, some .divisionByZero) := by decide
/-- V8 #3. -/
theorem test_sea_clears_high_bits : after (exec (.sea 0xFFF#12) (st 0x1234#16)) (·.ac) = some 0x0FFF#16 := by decide

/-! ### The cycle -/

/-- E7, cycle 1. -/
theorem test_step_first_cycle : after (step (loaded [0xF005#16, 0x2003#16])) (fun t => (t.pc, t.ir, t.ac, t.phase))
    = some (0x0002#16, 0xF005#16, 0x0005#16, .fetch) := by decide
/-- E9, as 90_conflicts.md C3 corrects it. -/
theorem test_step_unknown_opcode : after (step (loaded [0x6000#16])) (fun t => (t.pc, t.ir, t.phase, t.fault))
    = some (0x0002#16, 0x6000#16, .halted, some .unknownOpcode) := by decide
/-- V3 #3. -/
theorem test_step_fetch_out_of_range : after (step { State.reset with pc := 0x1000#16 }) (fun t => (t.pc, t.phase, t.fault))
    = some (0x1000#16, .halted, some .outOfRange) := by decide
/-- V3 #5: no alignment check. -/
theorem test_fetch_odd : after (fetch { State.reset with pc := 0x0011#16, mem := [(0x011, 0x20#8), (0x012, 0x01#8)] })
    (fun t => (t.pc, t.ir, t.phase)) = some (0x0013#16, 0x2001#16, .execute) := by decide
/-- V3 #6: PC wraps at MEM_SIZE = 65536. -/
theorem test_fetch_wraps : after (fetch { State.create 65536 with pc := 0xFFFE#16, mem := [(0xFFFE, 0xF0#8)] })
    (fun t => (t.pc, t.ir)) = some (0x0000#16, 0xF000#16) := by decide
/-- V10 #1: a stop before anything is fetched. -/
theorem test_step_stop : after (step { loaded [0xF005#16] with stopReqs := [true] }) (fun t => (t.pc, t.ir, t.ac, t.phase, t.fault))
    = some (0x0000#16, 0x0000#16, 0x0000#16, .stopped, none) := by decide
/-- V10 #3: in EXECUTE the stop is not sampled. -/
theorem test_step_execute_ignores_stop : after (step { st 0x0005#16 with ir := 0x2003#16, phase := .execute, stopReqs := [true] })
    (fun t => (t.ac, t.phase, t.stopReqs)) = some (0x0008#16, .fetch, [true]) := by decide
/-- V10 #4. -/
theorem test_step_halted : after (step { State.reset with phase := .halted, fault := some .outOfRange }) (·.pc) = none := by decide
/-- V6 #5: a store to the next instruction, which the next step executes. -/
theorem test_step_self_modifying :
    (after (step { st 0x2007#16 with pc := 0x008#16, ir := 0x1008#16, phase := .execute }) (fun t => after (step t) (·.ac)))
    = some (some 0x200E#16) := by decide
/-- The host's placing of a word: the very next step runs it. -/
theorem test_withFetchWord_runs : after (step (State.reset.withFetchWord 16 0x2003)) (fun t => (t.pc, t.ir, t.ac))
    = some (0x0002#16, 0x2003#16, 0x0003#16) := by decide

/-! ### The loader and the host's reads -/

/-- E7's first line, and a blank line. -/
theorem test_assembleLine_sea : assembleLine ['S', 'E', 'A', ' ', '0', '0', '0', '5'] = .ok [0xF005#16] := by decide
theorem test_assembleLine_blank : assembleLine [' ', '\t', '\r'] = .ok [] := by decide
/-- D12: leading and trailing white space, a lower-case digit. -/
theorem test_assembleLine_spaces : assembleLine [' ', 'S', 'T', 'A', '\t', ' ', 'f', ' ', '\r'] = .ok [0x100F#16] := by decide
/-- D12: a `0x` prefix, a lower-case mnemonic, a value above 0xFFF, a missing operand. -/
theorem test_assembleLine_prefix : assembleLine ['S', 'E', 'A', ' ', '0', 'x', '5'] = .error .malformedLine := by decide
theorem test_assembleLine_lower : assembleLine ['s', 'e', 'a', ' ', '5'] = .error .malformedLine := by decide
theorem test_assembleLine_large : assembleLine ['S', 'E', 'A', ' ', '1', '0', '0', '0'] = .error .malformedLine := by decide
theorem test_assembleLine_missing : assembleLine ['S', 'E', 'A'] = .error .malformedLine := by decide
/-- The model's choice of white space (log entry 8): a vertical tab makes a line malformed. -/
theorem test_assembleLine_vertical_tab : assembleLine [Char.ofNat 11, 'S', 'E', 'A', ' ', '5'] = .error .malformedLine := by decide
/-- A blank line uses no address (R85). -/
theorem test_assemble_skips_blank : assemble [['S', 'E', 'A', ' ', '5'], [], ['A', 'D', 'D', ' ', '3']] = .ok [0xF005#16, 0x2003#16] := by decide
theorem test_loadWords_too_long : loadWords 2 [0xF005#16, 0x2003#16] = .error .programTooLong := by decide
/-- R209: AC = 0x00AB prints as 00AB. -/
theorem test_snapshot : (snapshot (st 0x00AB#16)).ac = ['0', '0', 'A', 'B'] := by decide
/-- E10: 16 tokens 00 on one line. -/
theorem test_dump_fresh : dump State.reset 0 15 .hexadecimal = .ok [List.replicate 16 ['0', '0']] := by decide
/-- E10: the line's text, whatever its terminator. -/
theorem test_renderLine_fresh : ∃ lineEnd, renderLine .hexadecimal 0 15 0 (List.replicate 3 ['0', '0']) =
    ['0', '0', ' ', '0', '0', ' ', '0', '0'] ++ lineEnd := ⟨_, rfl⟩
/-- E11. -/
theorem test_dump_invalid : dump State.reset (-1) 10 .hexadecimal = .error .outOfRange := by decide
/-- R64: the bits of a byte, most significant first. -/
theorem test_dump_binary : dump (st 0x0000#16 [(0, 0xA1#8)]) 0 0 .binary = .ok [[['1', '0', '1', '0', '0', '0', '0', '1']]] := by decide

/-! ### Witnesses: the hypotheses of the statements can be met -/

theorem witness_aluDiv_divisor : (0x0002#16).toNat ≠ 0 ∧ ((0x0000#16).toNat = 0) := by decide
theorem witness_decodeLogic_unknown : (decodeLogic ({ State.reset with ir := 0x6000#16 } : State).ir).op = .unknown := by decide
theorem witness_word_in_range : 2 ≤ 4096 ∧ (0 : Int) ≤ 0xFFE ∧ (0xFFE : Int) ≤ ((4096 : Nat) : Int) - 2 := by decide
theorem witness_word_out_of_range : (0xFFF : Int) > ((4096 : Nat) : Int) - 2 ∧ (-1 : Int) < 0 := by decide
theorem witness_overlap : (writeWord 4096 [] 0x001 0xABCD#16).isSome = true ∧ 0x001 + 3 ≤ 4096 ∧ 1 ≤ 0x001 := by decide
theorem witness_canonical : Memory.wf 4096 [(0x000, 0x01#8), (0xFFF, 0x02#8)] := by decide
theorem witness_reset_memSize_ok : MemSizeOk 2 = true ∧ MemSizeOk 4096 = true ∧ MemSizeOk 65536 = true := by decide
theorem witness_encoded : 0x0FFF#16 &&& 0xF000#16 = 0x0000#16 ∧ 0x1000#16 &&& 0xF000#16 = 0x1000#16 ∧
    0x2FFF#16 &&& 0xF000#16 = 0x2000#16 ∧ 0x3000#16 &&& 0xF000#16 = 0x3000#16 ∧ 0x4FFF#16 &&& 0xF000#16 = 0x4000#16 ∧
    0x5000#16 &&& 0xF000#16 = 0x5000#16 ∧ 0xFFFF#16 &&& 0xF000#16 = 0xF000#16 := by decide
theorem witness_lda_sta_in_range : (0xFFE#12).toNat + 2 ≤ State.reset.memSize := by decide
theorem witness_lda_sta_out_of_range : State.reset.memSize < (0xFFF#12).toNat + 2 := by decide
theorem witness_lda_memSize : State.reset.memSize = 4096 := by decide
theorem witness_div_mod_operand : (0x001#12).toNat ≠ 0 ∧ (0x000#12).toNat = 0 := by decide
theorem witness_nonStoring_completes : (∀ x, Instr.lda 0x010#12 ≠ .sta x) ∧
    ∃ t, exec (.lda 0x010#12) State.reset = .next t ∧ t.phase = .fetch := ⟨by simp, _, rfl, rfl⟩
theorem witness_nonStoring_halts : (∀ x, Instr.div 0x000#12 ≠ .sta x) ∧
    ∃ t, exec (.div 0x000#12) State.reset = .next t ∧ t.phase = .halted := ⟨by simp, _, rfl, rfl⟩
theorem witness_sta_completes : ∃ t, exec (.sta 0xFFE#12) State.reset = .next t ∧ t.phase = .fetch := ⟨_, rfl, rfl⟩
theorem witness_sta_halts : ∃ t, exec (.sta 0xFFF#12) State.reset = .next t ∧ t.phase = .halted := ⟨_, rfl, rfl⟩
theorem witness_ready : State.reset.Ready := ⟨rfl, rfl⟩
theorem witness_fetch_in_range : ({ State.reset with pc := 0x0FFE#16 } : State).pc.toNat + 2 ≤ State.reset.memSize := by decide
theorem witness_fetch_out_of_range : ({ State.reset with pc := 0x0FFF#16 } : State).Ready ∧
    State.reset.memSize < ({ State.reset with pc := 0x0FFF#16 } : State).pc.toNat + 2 := ⟨⟨rfl, rfl⟩, by decide⟩
theorem witness_step_decodes : decodeBytes [readByte (loaded [0x2003#16]).mem 0, readByte (loaded [0x2003#16]).mem 1]
    = .ok (.add 0x003#12, []) := by decide
theorem witness_execute_decodes : decode ({ State.reset with ir := 0x2003#16, phase := .execute } : State).ir = .ok (.add 0x003#12) := by decide
theorem witness_unknown_lowest : (loaded [0x6000#16]).Ready ∧ (loaded [0x6000#16]).loadWord 0 = some 0x6000#16 ∧
    6 ≤ (0x6000#16).toNat / 4096 ∧ (0x6000#16).toNat / 4096 ≤ 14 := ⟨⟨rfl, rfl⟩, by decide⟩
theorem witness_unknown_highest : (loaded [0xEFFF#16]).loadWord 0 = some 0xEFFF#16 ∧ (0xEFFF#16).toNat / 4096 ≤ 14 := by decide
theorem witness_stop : ({ State.reset with stopReqs := [true] } : State).phase = .fetch ∧
    ({ State.reset with stopReqs := [true] } : State).stopAsserted = true := by decide
theorem witness_execute_next : ∃ t, step { State.reset with ir := 0xF005#16, phase := .execute } = .next t := ⟨_, rfl⟩
theorem witness_not_terminal : ¬ State.reset.Terminal := by simp [State.Terminal, State.reset, State.create]
theorem witness_terminal : ({ State.reset with phase := .stopped } : State).Terminal := .inr rfl
theorem witness_halting_step : ∃ t, step (loaded [0x4000#16]) = .next t ∧ t.phase = .halted := ⟨_, rfl, rfl⟩
theorem witness_transition_executes : ∃ t, transition (loaded [0x2003#16]) = .next t ∧ t.phase = .execute := ⟨_, rfl, rfl⟩
theorem witness_transition_ends : ∃ t, transition { State.reset with pc := 0x1000#16 } = .next t ∧ t.phase ≠ .execute :=
  ⟨_, rfl, by decide⟩
theorem witness_next_fetch_sees_store : ({ State.reset with pc := 0x0FFE#16 } : State).stopAsserted = false ∧
    ({ State.reset with pc := 0x0FFE#16 } : State).pc.toNat = (0xFFE#12).toNat ∧
    (0xFFE#12).toNat + 2 ≤ State.reset.memSize := by decide
theorem witness_invariant_step : State.reset.Inv ∧ ∃ t, step State.reset = .next t :=
  ⟨⟨by decide, by decide, by decide⟩, _, rfl⟩
theorem witness_pc_even_and_bounded : State.reset.pc.toNat % 2 = 0 ∧ State.reset.memSize ≤ 65535 ∧
    State.reset.pc.toNat ≤ State.reset.memSize := by decide
theorem witness_run_of_cycles : (State.create 2).phase = .fetch ∧ (State.create 2).memSize ≤ 65535 ∧ (State.create 2).pc = 0 ∧
    ∃ u, runSteps 1 (State.create 2) = .next u ∧ u.phase = .fetch ∧ u.Ready ∧ u.memSize < u.pc.toNat + 2 :=
  ⟨rfl, by decide, rfl, _, rfl, rfl, ⟨rfl, rfl⟩, by decide⟩
theorem witness_load_fits : 2 * [0xF005#16].length ≤ 2 ∧ 2 < 2 * [0xF005#16, 0x2003#16].length := by decide
theorem witness_load_word : [0xF005#16][0]? = some 0xF005#16 := by decide
theorem witness_separators : ∀ c ∈ [' ', '\t'], isSeparator c = true := by simp [isSeparator]
theorem witness_dump_line : ∃ lines, dump State.reset 0 16 .hexadecimal = .ok lines ∧ lines.length = 2 ∧ 0 + 1 < lines.length :=
  ⟨_, rfl, by decide, by decide⟩
theorem witness_dump_token : ∃ lines, dump State.reset 0 16 .hexadecimal = .ok lines ∧ 16 < (16 : Int).toNat - (0 : Int).toNat + 1 :=
  ⟨_, rfl, by decide⟩
theorem witness_memory_unit : (memoryWordAccess 4096 [] .write 0x0FFE#16 0xABCD#16).oor = false ∧
    (memoryWordAccess 4096 [] .write 0x0FFF#16 0xABCD#16).oor = true := by decide
theorem witness_fetch_unit_in_range : (fetchUnit (controlOut State.reset).start State.reset.pc
    (memoryWordAccess 4096 [] .read State.reset.pc 0)).oor = false := by decide
theorem witness_fetch_unit_out_of_range : (fetchUnit true 0x1000#16 (memoryWordAccess 4096 [] .read 0x1000#16 0)).oor = true := by decide

end Sys2Proof.Tests
end

