-- ==== Sys2Proof/Proofs/Memory.lean ====
section
/-! SUPPORT. The word accesses at an integer address, in the bytes they read and leave, and the statements about
them (spec/20_memory.md R42 to R44, R66). Every statement is derived from when an access fails and what it does
when it does not fail. -/

namespace Sys2Proof.Machine

/-! ### The bytes of a word, by number -/

theorem hiByte_toNat (w : Word) : (hiByte w).toNat = w.toNat / 256 := by
  have hw := w.isLt
  simp [hiByte, Nat.shiftRight_eq_div_pow]
  omega

theorem loByte_toNat (w : Word) : (loByte w).toNat = w.toNat % 256 := by
  simp [loByte]

/-- The combination is big-endian (R42): it is divided by 256 into its own high and low byte. -/
theorem wordOfBytes_toNat (hi lo : Byte) : (wordOfBytes hi lo).toNat = hi.toNat * 256 + lo.toNat := by
  have hhi : (wordOfBytes hi lo).toNat / 256 = hi.toNat := by rw [← hiByte_toNat, hiByte_wordOfBytes]
  have hlo : (wordOfBytes hi lo).toNat % 256 = lo.toNat := by rw [← loByte_toNat, loByte_wordOfBytes]
  omega

/-! ### The accesses at an integer address -/

variable {size : Nat} {m m' : Memory} {a : Int} {v w : Word}

theorem readWordAt_eq_none : readWordAt size m a = none ↔ a < 0 ∨ a > (size : Int) - 2 := by
  unfold readWordAt
  split
  · simp [*]
  · rw [readWord_eq_none]
    omega

theorem writeWordAt_eq_none : writeWordAt size m a v = none ↔ a < 0 ∨ a > (size : Int) - 2 := by
  unfold writeWordAt
  split
  · simp [*]
  · rw [writeWord_eq_none]
    omega

/-- Everything `readWordAt` can answer. -/
theorem readWordAt_eq_some : readWordAt size m a = some w ↔ 0 ≤ a ∧ a ≤ (size : Int) - 2 ∧
    w = wordOfBytes (readByte m a.toNat) (readByte m (a.toNat + 1)) := by
  unfold readWordAt
  split
  · simp only [reduceCtorEq, false_iff]
    omega
  · rw [readWord_eq_some, ← and_assoc]
    exact and_congr_left fun _ => by omega

/-- Everything `writeWordAt` can do, in the bytes it leaves. -/
theorem writeWordAt_spec (h : writeWordAt size m a v = some m') (b : Nat) : readByte m' b =
    if b = a.toNat + 1 then loByte v else if b = a.toNat then hiByte v else readByte m b := by
  unfold writeWordAt at h
  split at h
  · cases h
  · exact (writeWord_spec h).2 b

theorem exists_writeWordAt (m : Memory) (v : Word) (h0 : 0 ≤ a) (h1 : a ≤ (size : Int) - 2) :
    ∃ m', writeWordAt size m a v = some m' := by
  rw [← Option.ne_none_iff_exists', Ne, writeWordAt_eq_none]
  omega

/-! ### What the stored bytes read as -/

theorem readByte_writeWordAt_hi (h : writeWordAt size m a v = some m') : readByte m' a.toNat = hiByte v := by
  simp [writeWordAt_spec h]

theorem readByte_writeWordAt_lo (h : writeWordAt size m a v = some m') : readByte m' (a.toNat + 1) = loByte v := by
  simp [writeWordAt_spec h]

theorem readByte_writeWordAt_frame (h : writeWordAt size m a v = some m') {b : Nat} (hhi : b ≠ a.toNat)
    (hlo : b ≠ a.toNat + 1) : readByte m' b = readByte m b := by
  simp [writeWordAt_spec h, hhi, hlo]

/-- A stored word is read back: its two bytes join to it again (R66). -/
theorem readWordAt_writeWordAt (h0 : 0 ≤ a) (h1 : a ≤ (size : Int) - 2) (h : writeWordAt size m a v = some m') :
    readWordAt size m' a = some v := by
  rw [readWordAt_eq_some, readByte_writeWordAt_hi h, readByte_writeWordAt_lo h, wordOfBytes_hiByte_loByte]
  exact ⟨h0, h1, rfl⟩

end Sys2Proof.Machine

namespace Sys2Proof.Proofs.Memory
open Sys2Proof.Machine

/-- Settles O9: the failures are `readWordAt_eq_none`, and in range the word read is the pair of bytes, whose value
is `wordOfBytes_toNat`. -/
theorem readWordContract : Obligations.ReadWordContract := by
  intro size m a _
  refine ⟨readWordAt_eq_none.mpr, fun h0 h1 => ⟨_, readWordAt_eq_some.mpr ⟨h0, h1, rfl⟩, ?_⟩⟩
  exact wordOfBytes_toNat _ _

/-- Settles O10: the failures are `writeWordAt_eq_none`, and in range each byte after the store is one of
`hiByte v`, `loByte v` and the byte before. -/
theorem writeWordContract : Obligations.WriteWordContract := by
  intro size m a v _
  refine ⟨writeWordAt_eq_none.mpr, fun h0 h1 => ?_⟩
  obtain ⟨m', hm'⟩ := exists_writeWordAt m v h0 h1
  refine ⟨m', hm', ?_, ?_, fun b => readByte_writeWordAt_frame hm'⟩
  · rw [readByte_writeWordAt_hi hm', hiByte_toNat]
  · rw [readByte_writeWordAt_lo hm', loByte_toNat]

/-- Settles O11: in range by `readWordAt_writeWordAt`; the two operations fail at the same addresses. -/
theorem wordRoundTrip : Obligations.WordRoundTrip := by
  intro size m a v _
  refine ⟨fun h0 h1 => ?_, fun h => ⟨readWordAt_eq_none.mpr h, writeWordAt_eq_none.mpr h⟩⟩
  obtain ⟨m', hm'⟩ := exists_writeWordAt m v h0 h1
  exact ⟨m', hm', readWordAt_writeWordAt h0 h1 hm'⟩

end Sys2Proof.Proofs.Memory
end

