-- ==== Sys2Proof/Proofs/Encoding.lean ====
section
/-! SUPPORT. The fields of an instruction word by number, the encoder as their inverse, and the unassigned opcodes
from decode_logic to the execute phase (spec/30_encoding.md R72, R76, R81). -/

namespace Sys2Proof

/-! ### The fields of a word, by number -/

theorem opcodeField_toNat (w : Word) : (opcodeField w).toNat = w.toNat / 4096 := by
  have hmask (n : Nat) : n &&& 15 = n % 16 := Nat.and_two_pow_sub_one_eq_mod n 4
  have hw := w.isLt
  simp [opcodeField, hmask, Nat.shiftRight_eq_div_pow]
  omega

theorem operandField_toNat (w : Word) : (operandField w).toNat = w.toNat % 4096 := by
  have hmask (n : Nat) : n &&& 4095 = n % 4096 := Nat.and_two_pow_sub_one_eq_mod n 12
  simp [operandField, hmask]

/-! ### The encoder is the inverse of the fields -/

/-- The encoded word is divided by 4096 into its own two fields (R81). -/
theorem encodeFields_toNat (o : Opcode) (x : Operand) : (encodeFields o x).toNat = o.toNat * 4096 + x.toNat := by
  have hopcode : (encodeFields o x).toNat / 4096 = o.toNat := by
    rw [← opcodeField_toNat, Laws.EncodesFields.opcodeField_encodeFields]
  have hoperand : (encodeFields o x).toNat % 4096 = x.toNat := by
    rw [← operandField_toNat, Laws.EncodesFields.operandField_encodeFields]
  omega

theorem encodeFields_opcodeField_operandField (w : Word) : encodeFields (opcodeField w) (operandField w) = w := by
  apply BitVec.eq_of_toNat_eq
  rw [encodeFields_toNat, opcodeField_toNat, operandField_toNat]
  exact Nat.div_add_mod' _ _

/-! ### An unassigned opcode -/

theorem decode_of_op_unknown {w : Word} (h : (decodeLogic w).op = .unknown) :
    decode w = .error (.unknownOpcode (opcodeField w)) := by
  simp only [decode, h]
  rfl

namespace Machine

theorem execute_of_decode_error {s : State} {e : DecodeError} (h : decode s.ir = .error e) :
    execute s = raise .unknownOpcode s := by
  rw [execute, h]

end Machine
end Sys2Proof

namespace Sys2Proof.Proofs.Encoding
open Sys2Proof.Machine

/-- Settles O2: the fields of an encoded pair are the laws of `Laws.EncodesFields`, its value is `encodeFields_toNat`,
and the encoding of a word's fields has the value of the word. -/
theorem fieldsEncodeBijectively : Obligations.FieldsEncodeBijectively := by
  refine ⟨fun o x => ⟨encodeFields_toNat o x, ?_, ?_⟩, encodeFields_opcodeField_operandField⟩
  · exact Laws.EncodesFields.opcodeField_encodeFields o x
  · exact Laws.EncodesFields.operandField_encodeFields o x

/-- Settles O1: the fields are `opcodeField_toNat` and `operandField_toNat`, and `decode` turns an opcode that
decode_logic does not know into the error on which `execute` raises UnknownOpcode. -/
theorem decodeLogicSplitsInstruction : Obligations.DecodeLogicSplitsInstruction := by
  refine ⟨fun w => ⟨?_, operandField_toNat w, rfl, rfl⟩, fun s h => ?_⟩
  · have hw := w.isLt
    rw [opcodeField_toNat]
    omega
  · exact execute_of_decode_error (decode_of_op_unknown h)

end Sys2Proof.Proofs.Encoding
end

