-- ==== Sys2Proof/Proofs/Fetch.lean ====
section
/-! SUPPORT. What the fetch phase answers in each of its two cases, and the value of the advanced PC
(spec/40_cycle.md R91, R93). -/

namespace Sys2Proof.Machine

variable {s : State}

/-! ### The two cases of a fetch -/

theorem fetch_of_fetchWord_eq_none (h : s.fetchWord = none) : fetch s = raise .outOfRange s := by
  rw [fetch, h]

theorem fetch_of_fetchWord_eq_some {w : Word} (h : s.fetchWord = some w) : fetch s = .next (s.fetched w) := by
  rw [fetch, h]

/-! ### The advanced PC, by number -/

/-- PC advances by 2 modulo 2^16, so it wraps from 0xFFFE to 0 (R93). -/
theorem fetched_pc_toNat (w : Word) (s : State) : (s.fetched w).pc.toNat = (s.pc.toNat + 2) % 65536 := by
  rw [State.fetched_pc]
  exact BitVec.toNat_add s.pc 2#16

end Sys2Proof.Machine

namespace Sys2Proof.Proofs.Fetch
open Sys2Proof.Machine

/-- Settles O28: in range the fetch answers `State.fetched` of the word at PC, whose value is `wordOfBytes_toNat`,
and that state keeps every field but IR, PC and phase; out of range there is no word at PC. -/
theorem fetchContract : Obligations.FetchContract := by
  refine fun s => ⟨fun hrange => ?_, fun hoor => fetch_of_fetchWord_eq_none (fetchWord_eq_none.mpr hoor)⟩
  have hword := fetchWord_eq_some.mpr ⟨hrange, rfl⟩
  refine ⟨_, fetch_of_fetchWord_eq_some hword, ?_, fetched_pc_toNat _ s, ?frame⟩
  · rw [State.fetched_ir, wordOfBytes_toNat]
  case frame => simp

end Sys2Proof.Proofs.Fetch
end

