-- ==== Sys2Proof/Proofs/Load.lean ====
section
/-! SUPPORT. The mask of an instruction's opcode bits as a fact about its opcode field, the two ends of an instruction
that writes AC or raises a fault, and what LDA answers in each of its two cases (spec/30_encoding.md R75,
spec/40_cycle.md R95 and R97, spec/41_load_store.md R121). -/

namespace Sys2Proof

/-! ### Mask and match -/

/-- The mask 0xF000 keeps the opcode field (R72). -/
theorem opcodeField_and_mask (w : Word) : opcodeField (w &&& 0xF000#16) = opcodeField w := by
  have hmask : (0xF000#16 >>> 12) &&& 0xF#16 = 0xF#16 := by decide
  simp only [opcodeField, BitVec.ushiftRight_and_distrib, BitVec.and_assoc, hmask]

theorem decode_of_op_lda {w : Word} (h : (decodeLogic w).op = .lda) : decode w = .ok (.lda (operandField w)) := by
  simp only [decode, h]
  rfl

namespace Machine

/-- An instruction is encoded with match `pattern` when every word with the opcode field of `pattern` decodes to it. -/
theorem encodedAs_of_decode {pattern : Word} {mk : Operand → Instr}
    (hdecode : ∀ w, opcodeField w = opcodeField pattern → decode w = .ok (mk (operandField w))) :
    EncodedAs pattern mk := by
  intro w hw
  have hopcode : opcodeField w = opcodeField pattern := by rw [← hw, opcodeField_and_mask]
  exact ⟨operandField w, operandField_toNat w, hdecode w hopcode⟩

theorem encodedAs_lda : EncodedAs 0x0000#16 .lda := by
  refine encodedAs_of_decode fun w hopcode => decode_of_op_lda ?_
  change decodeOp (opcodeField w) = .lda
  rw [hopcode]
  rfl

/-! ### The ends of an instruction -/

variable {s : State}

theorem wroteAc_writeAc_writePhase (v : Word) (s : State) :
    WroteAc v.toNat s ((s.writeAc v).writePhase .fetch) :=
  ⟨rfl, rfl, rfl, rfl, ⟨rfl, rfl, rfl, rfl⟩⟩

theorem haltedWith_halt (k : FaultKind) (s : State) : HaltedWith k s (s.halt k) :=
  ⟨rfl, rfl, rfl, rfl, ⟨rfl, rfl, rfl, rfl⟩⟩

/-! ### The two cases of LDA -/

theorem exec_lda_of_loadWord_eq_some {x : Operand} {v : Word} (h : s.loadWord x.toNat = some v) :
    exec (.lda x) s = complete (s.writeAc v) := by
  simp only [exec, execLda, effectiveAddress_eq, h]

theorem exec_lda_of_loadWord_eq_none {x : Operand} (h : s.loadWord x.toNat = none) :
    exec (.lda x) s = raise .outOfRange s := by
  simp only [exec, execLda, effectiveAddress_eq, h]

/-- At MEM_SIZE = 4096 the one operand whose word is out of range is the highest (R121). -/
theorem operand_out_of_range_4096 (x : Operand) : 4096 < x.toNat + 2 ↔ x = 0xFFF#12 := by
  have hx := x.isLt
  rw [← BitVec.toNat_inj, BitVec.toNat_ofNat]
  omega

end Machine
end Sys2Proof

namespace Sys2Proof.Proofs.Load
open Sys2Proof.Machine

/-- Settles O17: in range LDA completes with the word at its operand in AC, whose value is `wordOfBytes_toNat`; out of
range there is no word and LDA raises OutOfRange. -/
theorem ldaLoadsWord : Obligations.LdaLoadsWord := by
  refine ⟨encodedAs_lda, fun x s => ⟨fun hrange => ?inRange, fun hoor => ?outOfRange, fun hsize => ?top⟩⟩
  case inRange =>
    have hload := loadWord_eq_some.mpr ⟨hrange, rfl⟩
    rw [← wordOfBytes_toNat]
    exact ⟨_, exec_lda_of_loadWord_eq_some hload, wroteAc_writeAc_writePhase _ s⟩
  case outOfRange =>
    have hload := loadWord_eq_none.mpr hoor
    exact ⟨_, exec_lda_of_loadWord_eq_none hload, haltedWith_halt .outOfRange s⟩
  case top =>
    rw [hsize]
    exact operand_out_of_range_4096 x

end Sys2Proof.Proofs.Load
end

