-- ==== Sys2Proof/Proofs/Arithmetic.lean ====
section
/-! SUPPORT. The decoder on a word by its two fields, the ALU in its two cases, and what an arithmetic instruction
answers in each of them (spec/30_encoding.md R75, spec/42_arithmetic.md R130 to R139). -/

namespace Sys2Proof

/-! ### The decoder by the fields of the word -/

/-- A word with the opcode and the operand of an instruction decodes to it (R75). -/
theorem decode_of_fields {w : Word} {i : Instr} (hopcode : opcodeField w = opcodeOf i)
    (hoperand : operandField w = i.operand) : decode w = .ok i := by
  cases i <;> simp [decode, decodeLogic, hopcode, hoperand, opcodeOf, Instr.operand, decodeOp]

namespace Machine

theorem encodedAs_of_opcodeOf {pattern : Word} {mk : Operand → Instr}
    (hopcode : ∀ x, opcodeOf (mk x) = opcodeField pattern) (hoperand : ∀ x, (mk x).operand = x) :
    EncodedAs pattern mk :=
  encodedAs_of_decode fun _ hw => decode_of_fields (hw.trans (hopcode _).symm) (hoperand _).symm

theorem encodedAs_add : EncodedAs 0x2000#16 .add := encodedAs_of_opcodeOf (fun _ => rfl) (fun _ => rfl)
theorem encodedAs_mul : EncodedAs 0x3000#16 .mul := encodedAs_of_opcodeOf (fun _ => rfl) (fun _ => rfl)
theorem encodedAs_div : EncodedAs 0x4000#16 .div := encodedAs_of_opcodeOf (fun _ => rfl) (fun _ => rfl)
theorem encodedAs_mod : EncodedAs 0x5000#16 .mod := encodedAs_of_opcodeOf (fun _ => rfl) (fun _ => rfl)

/-! ### The outputs of the ALU -/

section Alu

variable {op : AluOp} {a b : Word}

theorem dz_div_eq_true : dz .div b = true ↔ b.toNat = 0 := by
  simp [dz, ← BitVec.toNat_inj]

theorem dz_div_eq_false : dz .div b = false ↔ b.toNat ≠ 0 := by
  rw [← Bool.not_eq_true, dz_div_eq_true]

/-- DIV and MOD fail for the same divisors (R130). -/
theorem dz_mod_eq_dz_div (b : Word) : dz .mod b = dz .div b := rfl

theorem alu_y_of_dz_eq_false (h : dz op b = false) : (alu op a b).y = aluResult op a b := by
  simp [alu, h]

theorem alu_div_y_toNat (hb : b.toNat ≠ 0) : (alu .div a b).y.toNat = a.toNat / b.toNat := by
  rw [alu_y_of_dz_eq_false (dz_div_eq_false.mpr hb)]
  exact aluDiv_toNat a b

end Alu

/-! ### The two cases of an arithmetic instruction -/

section AluInstr

variable {op : AluOp} {x : Operand}

/-- Where the ALU does not fail, the instruction completes with the ALU's result in AC (R136 to R139). -/
theorem aluInstr_wroteAc (s : State) (h : dz op (immediate x) = false) :
    ∃ t, aluInstr op x s = .next t ∧ WroteAc (aluResult op s.ac (immediate x)).toNat s t := by
  have hcomplete : aluInstr op x s = complete (s.writeAc (aluResult op s.ac (immediate x))) := by
    simp [aluInstr, alu, h]
  exact ⟨_, hcomplete, wroteAc_writeAc_writePhase _ s⟩

/-- Where the ALU fails, the instruction raises DivisionByZero (R138, R139). -/
theorem aluInstr_haltedWith (s : State) (h : dz op (immediate x) = true) :
    ∃ t, aluInstr op x s = .next t ∧ HaltedWith .divisionByZero s t := by
  have hraise : aluInstr op x s = raise .divisionByZero s := by
    simp [aluInstr, alu, h]
  exact ⟨_, hraise, haltedWith_halt .divisionByZero s⟩

theorem dz_div_immediate_eq_true : dz .div (immediate x) = true ↔ x.toNat = 0 := by
  rw [dz_div_eq_true, immediate_toNat]

theorem dz_div_immediate_eq_false : dz .div (immediate x) = false ↔ x.toNat ≠ 0 := by
  rw [dz_div_eq_false, immediate_toNat]

end AluInstr

end Machine
end Sys2Proof

namespace Sys2Proof.Proofs.Arithmetic
open Sys2Proof.Machine

/-- Settles O7: the failure is `dz`, and for a divisor that is not 0 the output is the quotient, which is at most the
dividend. -/
theorem aluDivQuotient : Obligations.AluDivQuotient := by
  refine fun a b => ⟨dz_div_eq_true, fun hb => ?_⟩
  rw [alu_div_y_toNat hb]
  exact ⟨rfl, Nat.div_le_self _ _⟩

/-- Settles O20: ADD never fails in the ALU, whose result is `aluAdd_toNat`. -/
theorem addWraps : Obligations.AddWraps := by
  refine ⟨encodedAs_add, fun x s => ?_⟩
  rw [← immediate_toNat x, ← aluAdd_toNat]
  exact aluInstr_wroteAc (op := .add) s rfl

/-- Settles O21: MUL never fails in the ALU, whose result is `aluMul_toNat`. -/
theorem mulWraps : Obligations.MulWraps := by
  refine ⟨encodedAs_mul, fun x s => ?_⟩
  rw [← immediate_toNat x, ← aluMul_toNat]
  exact aluInstr_wroteAc (op := .mul) s rfl

/-- Settles O22: the ALU fails exactly for operand 0, and its result otherwise is `aluDiv_toNat`. -/
theorem divQuotientOrHalt : Obligations.DivQuotientOrHalt := by
  refine ⟨encodedAs_div, fun x s => ⟨fun hx => ?quotient, fun hx => ?halt⟩⟩
  case quotient =>
    have hdz : dz .div (immediate x) = false := dz_div_immediate_eq_false.mpr hx
    rw [← immediate_toNat x, ← aluDiv_toNat]
    exact aluInstr_wroteAc s hdz
  case halt =>
    have hdz : dz .div (immediate x) = true := dz_div_immediate_eq_true.mpr hx
    exact aluInstr_haltedWith s hdz

/-- Settles O23: MOD fails in the ALU where DIV does, and its result otherwise is `aluMod_toNat`. -/
theorem modRemainderOrHalt : Obligations.ModRemainderOrHalt := by
  refine ⟨encodedAs_mod, fun x s => ⟨fun hx => ?remainder, fun hx => ?halt⟩⟩
  case remainder =>
    have hdz : dz .mod (immediate x) = false := (dz_mod_eq_dz_div _).trans (dz_div_immediate_eq_false.mpr hx)
    rw [← immediate_toNat x, ← aluMod_toNat]
    exact aluInstr_wroteAc s hdz
  case halt =>
    have hdz : dz .mod (immediate x) = true := (dz_mod_eq_dz_div _).trans (dz_div_immediate_eq_true.mpr hx)
    exact aluInstr_haltedWith s hdz

/-- Settles O6: neither operation has a failing divisor, and the results are `aluAdd_toNat` and `aluMul_toNat`. -/
theorem aluAddMulWrap : Obligations.AluAddMulWrap :=
  fun a b => ⟨rfl, aluAdd_toNat a b, rfl, aluMul_toNat a b⟩

end Sys2Proof.Proofs.Arithmetic
end

