-- ==== Sys2Proof/Proofs/SetAccumulator.lean ====
section
/-! SUPPORT. A second write to AC hides the first, and what SEA answers, with the statement about it
(spec/43_set_accumulator.md R160). -/

namespace Sys2Proof.Machine

@[simp] theorem State.writeAc_writeAc (u v : Word) (s : State) : (s.writeAc v).writeAc u = s.writeAc u := rfl

theorem encodedAs_sea : EncodedAs 0xF000#16 .sea := encodedAs_of_opcodeOf (fun _ => rfl) (fun _ => rfl)

/-- SEA completes in every state, with its immediate in AC (R160). -/
theorem exec_sea (x : Operand) (s : State) : exec (.sea x) s = complete (s.writeAc (immediate x)) := rfl

end Sys2Proof.Machine

namespace Sys2Proof.Proofs.SetAccumulator
open Sys2Proof.Machine

/-- Settles O24: SEA completes with its immediate in AC (`exec_sea`), and that write hides any earlier write to AC. -/
theorem seaSetsAccumulator : Obligations.SeaSetsAccumulator := by
  refine ⟨encodedAs_sea, fun x s => ⟨?writes, fun v => ?ignoresAc⟩⟩
  case writes =>
    rw [← immediate_toNat x]
    exact ⟨_, exec_sea x s, wroteAc_writeAc_writePhase _ s⟩
  case ignoresAc =>
    rw [exec_sea, exec_sea, State.writeAc_writeAc]

end Sys2Proof.Proofs.SetAccumulator
end

/-! SUPPORT. The decoder as the inverse of the encoder on the words of the seven assigned opcodes, and its rejection of
every other word (spec/30_encoding.md R71, R75, R76, R80 to R82). -/

namespace Sys2Proof

/-! ### The decoder on encoded instructions -/

theorem decode_encode (i : Instr) : decode (encode i) = .ok i :=
  decode_of_fields (Laws.EncodesFields.opcodeField_encodeFields _ _)
    (Laws.EncodesFields.operandField_encodeFields _ _)

theorem decodeBytes_encodeBytes_append (i : Instr) (rest : List Byte) :
    decodeBytes (encodeBytes i ++ rest) = .ok (i, rest) := by
  simp [encodeBytes, decodeBytes, decode_encode]

/-! ### The opcode map -/

/-- The opcode map assigns exactly the opcodes outside 0x6 to 0xE (R75, R76). -/
theorem decodeOp_assigned_or_unknown (o : Opcode) :
    o ∈ assignedOpcodes ∨ (decodeOp o = .unknown ∧ 6 ≤ o.toNat ∧ o.toNat ≤ 14) := by
  revert o
  decide

theorem exists_instr_of_assigned {o : Opcode} (ho : o ∈ assignedOpcodes) (x : Operand) :
    ∃ i : Instr, opcodeOf i = o ∧ i.operand = x := by
  simp only [assignedOpcodes, List.mem_cons, List.not_mem_nil, or_false] at ho
  rcases ho with rfl | rfl | rfl | rfl | rfl | rfl | rfl
  · exact ⟨.lda x, rfl, rfl⟩
  · exact ⟨.sta x, rfl, rfl⟩
  · exact ⟨.add x, rfl, rfl⟩
  · exact ⟨.mul x, rfl, rfl⟩
  · exact ⟨.div x, rfl, rfl⟩
  · exact ⟨.mod x, rfl, rfl⟩
  · exact ⟨.sea x, rfl, rfl⟩

theorem opcodeOf_toNat (i : Instr) : (opcodeOf i).toNat ≤ 5 ∨ (opcodeOf i).toNat = 15 := by
  cases i <;> simp [opcodeOf]

/-! ### Every word -/

/-- A word is the word of an instruction, which it decodes to, or it is rejected by its opcode (R75, R76). -/
theorem decode_cases (w : Word) :
    (∃ i, decode w = .ok i ∧ encode i = w) ∨
    (decode w = .error (.unknownOpcode (opcodeField w)) ∧ 6 ≤ w.toNat / 4096 ∧ w.toNat / 4096 ≤ 14) := by
  rcases decodeOp_assigned_or_unknown (opcodeField w) with ho | ⟨hop, hrange⟩
  · obtain ⟨i, hopcode, hoperand⟩ := exists_instr_of_assigned ho (operandField w)
    refine .inl ⟨i, decode_of_fields hopcode.symm hoperand.symm, ?_⟩
    rw [encode, hopcode, hoperand, encodeFields_opcodeField_operandField]
  · rw [opcodeField_toNat] at hrange
    exact .inr ⟨decode_of_op_unknown hop, hrange⟩

theorem encode_toNat_div_4096 (i : Instr) : (encode i).toNat / 4096 ≤ 5 ∨ (encode i).toNat / 4096 = 15 := by
  rw [← opcodeField_toNat, encode, Laws.EncodesFields.opcodeField_encodeFields]
  exact opcodeOf_toNat i

theorem decode_eq_ok {w : Word} {i : Instr} : decode w = .ok i ↔ encode i = w := by
  refine ⟨fun h => ?_, fun h => h ▸ decode_encode i⟩
  rcases decode_cases w with ⟨j, hj, hencode⟩ | ⟨herror, -⟩
  · cases h.symm.trans hj
    exact hencode
  · cases h.symm.trans herror

theorem decode_eq_error {w : Word} {e : DecodeError} : decode w = .error e ↔
    e = .unknownOpcode (opcodeField w) ∧ 6 ≤ w.toNat / 4096 ∧ w.toNat / 4096 ≤ 14 := by
  rcases decode_cases w with ⟨i, hi, rfl⟩ | ⟨herror, hrange⟩
  · have hassigned := encode_toNat_div_4096 i
    simp only [hi, reduceCtorEq, false_iff]
    omega
  · simp only [herror, Except.error.injEq, hrange, and_true]
    exact eq_comm

end Sys2Proof

namespace Sys2Proof.Proofs.Decoder

/-- Settles O3: the fields of the encoded word are the instruction's, and its two bytes join to it again. -/
theorem decodeInvertsEncode : Obligations.DecodeInvertsEncode :=
  fun i rest => ⟨decode_encode i, decodeBytes_encodeBytes_append i rest⟩

/-- Settles O4: a word is either encoded, and then of an assigned opcode, or rejected (`decode_cases`). -/
theorem everyWordHasOneMeaning : Obligations.EveryWordHasOneMeaning :=
  fun _ => ⟨fun _ => decode_eq_ok, fun _ => decode_eq_error⟩

/-- Settles O5: seven of the words are the encodings of their instructions, and the opcode of the last is 7. -/
theorem tableWordsDecode : Obligations.TableWordsDecode := by
  unfold Obligations.TableWordsDecode
  simp only [decode_eq_ok, decode_eq_error]
  decide

end Sys2Proof.Proofs.Decoder

/-! SUPPORT. The remainder of the ALU, the bytes a word write shares with its neighbours, the canonical form as a
function of the bytes, memory_word_access, and the codes of the status registers (spec/42_arithmetic.md R134,
spec/20_memory.md R40, R46, R49, spec/10_state.md R26, R30). -/

namespace Sys2Proof.Machine

/-! ### The remainder -/

theorem alu_mod_y_toNat {a b : Word} (hb : b.toNat ≠ 0) : (alu .mod a b).y.toNat = a.toNat % b.toNat := by
  have hdz : dz .mod b = false := (dz_mod_eq_dz_div b).trans (dz_div_eq_false.mpr hb)
  rw [alu_y_of_dz_eq_false hdz]
  exact aluMod_toNat a b

/-! ### A word after a word write -/

section WordWrite

variable {size : Nat} {m m' : Memory} {a : Nat} {v : Word}

theorem exists_writeWord (m : Memory) (v : Word) (ha : a + 2 ≤ size) : ∃ m', writeWord size m a v = some m' := by
  rw [← Option.ne_none_iff_exists', Ne, writeWord_eq_none]
  omega

/-- A word read depends only on its two bytes. -/
theorem readWord_congr (hhi : readByte m' a = readByte m a) (hlo : readByte m' (a + 1) = readByte m (a + 1)) :
    readWord size m' a = readWord size m a := by
  rw [readWord, readWord, hhi, hlo]

theorem readWord_writeWord (h : writeWord size m a v = some m') : readWord size m' a = some v := by
  obtain ⟨hrange, hbytes⟩ := writeWord_spec h
  refine readWord_eq_some.mpr ⟨hrange, ?_⟩
  simp [hbytes]

theorem readWord_above_writeWord (h : writeWord size m a v = some m') (ha : a + 3 ≤ size) :
    readWord size m' (a + 1) = some (wordOfBytes (loByte v) (readByte m (a + 2))) := by
  obtain ⟨-, hbytes⟩ := writeWord_spec h
  have hne : a + 1 + 1 ≠ a := by omega
  refine readWord_eq_some.mpr ⟨ha, ?_⟩
  simp [hbytes, hne]

theorem readWord_below_writeWord (h : writeWord size m (a + 1) v = some m') :
    readWord size m' a = some (wordOfBytes (readByte m a) (hiByte v)) := by
  obtain ⟨hrange, hbytes⟩ := writeWord_spec h
  have hne : a ≠ a + 1 + 1 := by omega
  refine readWord_eq_some.mpr ⟨by omega, ?_⟩
  simp [hbytes, hne]

end WordWrite

/-! ### The canonical form is one per memory -/

section Canonical

variable {size k k' : Nat} {b b' : Byte} {m m' : Memory}

theorem readByte_of_forall_lt {a : Nat} (h : ∀ c ∈ m, a < c.1) : readByte m a = unlistedByte := by
  induction m with
  | nil => rfl
  | cons c m ih =>
    obtain ⟨hc, hm⟩ := List.forall_mem_cons.mp h
    rw [readByte, if_neg hc.ne, ih hm]

theorem readByte_cons_head : readByte ((k, b) :: m) k = b := if_pos rfl

theorem readByte_cons_of_ne {a : Nat} (h : a ≠ k) : readByte ((k, b) :: m) a = readByte m a := if_neg h

theorem Memory.wf_cons : Memory.wf size ((k, b) :: m) ↔
    (∀ c ∈ m, k < c.1) ∧ k < size ∧ b ≠ unlistedByte ∧ Memory.wf size m := by
  simp only [Memory.wf, List.pairwise_cons, List.forall_mem_cons]
  tauto

/-- Where two memories read the same, neither starts below the other: the byte at its first address is listed. -/
theorem head_le_of_readByte_eq (h : Memory.wf size ((k, b) :: m)) (h' : Memory.wf size ((k', b') :: m'))
    (heq : ∀ a, readByte ((k, b) :: m) a = readByte ((k', b') :: m') a) : k' ≤ k := by
  obtain ⟨-, -, hb, -⟩ := Memory.wf_cons.mp h
  obtain ⟨hlt', -, -, -⟩ := Memory.wf_cons.mp h'
  by_contra hk
  have hbelow : ∀ c ∈ (k', b') :: m', k < c.1 :=
    List.forall_mem_cons.mpr ⟨by omega, fun c hc => by have := hlt' c hc; omega⟩
  refine hb ?_
  rw [← readByte_of_forall_lt hbelow, ← heq, readByte_cons_head]

theorem Memory.wf_ext (h : Memory.wf size m) (h' : Memory.wf size m')
    (heq : ∀ a, readByte m a = readByte m' a) : m = m' := by
  induction m generalizing m' with
  | nil =>
    cases m' with
    | nil => rfl
    | cons c' m' =>
      obtain ⟨-, -, hb', -⟩ := Memory.wf_cons.mp h'
      exact absurd ((heq c'.1).trans readByte_cons_head).symm hb'
  | cons c m ih =>
    obtain ⟨k, b⟩ := c
    obtain ⟨hlt, -, hb, hm⟩ := Memory.wf_cons.mp h
    cases m' with
    | nil => exact absurd (readByte_cons_head.symm.trans (heq k)) hb
    | cons c' m' =>
      obtain ⟨k', b'⟩ := c'
      obtain ⟨hlt', -, -, hm'⟩ := Memory.wf_cons.mp h'
      obtain rfl : k = k' :=
        Nat.le_antisymm (head_le_of_readByte_eq h' h fun a => (heq a).symm) (head_le_of_readByte_eq h h' heq)
      obtain rfl : b = b' := readByte_cons_head.symm.trans ((heq k).trans readByte_cons_head)
      have htail : ∀ a, readByte m a = readByte m' a := fun a => by
        by_cases ha : a = k
        · rw [ha, readByte_of_forall_lt hlt, readByte_of_forall_lt hlt']
        · rw [← readByte_cons_of_ne (b := b) ha, heq, readByte_cons_of_ne ha]
      rw [ih hm hm' htail]

end Canonical

/-! ### memory_word_access -/

section MemoryUnit

variable {size : Nat} {m : Memory} {addr v : Word}

theorem memoryWordAccess_oor (req : MemReq) : (memoryWordAccess size m req addr v).oor = oor size addr.toNat := by
  cases req <;> rfl

/-- A request with `oor` has no other effect and reads nothing (R46). -/
theorem memoryWordAccess_of_oor (req : MemReq) (h : size < addr.toNat + 2) :
    (memoryWordAccess size m req addr v).mem = m ∧ (memoryWordAccess size m req addr v).rdata = none := by
  cases req with
  | read => exact ⟨rfl, readWord_eq_none.mpr h⟩
  | write => simp [memoryWordAccess, writeWord_eq_none.mpr h]

theorem memoryWordAccess_read_after_write (h : addr.toNat + 2 ≤ size) :
    (memoryWordAccess size (memoryWordAccess size m .write addr v).mem .read addr v).rdata = some v := by
  obtain ⟨m', hm'⟩ := exists_writeWord m v h
  have hmem : (memoryWordAccess size m .write addr v).mem = m' := by simp [memoryWordAccess, hm']
  rw [hmem]
  exact readWord_writeWord hm'

end MemoryUnit

/-! ### The codes of the status registers -/

/-- The phase of a code, the inverse of `phaseCode`. -/
def phaseOfCode (c : BitVec 2) : Phase :=
  match c with
  | 0#2 => .fetch
  | 1#2 => .execute
  | 2#2 => .halted
  | _ => .stopped

/-- The fault status of a code, the inverse of `faultCode`. -/
def faultOfCode (c : BitVec 2) : Option FaultKind :=
  match c with
  | 0#2 => none
  | 1#2 => some .outOfRange
  | 2#2 => some .divisionByZero
  | _ => some .unknownOpcode

theorem phaseOfCode_phaseCode (p : Phase) : phaseOfCode (phaseCode p) = p := by cases p <;> rfl

theorem phaseCode_phaseOfCode (c : BitVec 2) : phaseCode (phaseOfCode c) = c := by revert c; decide

theorem faultOfCode_faultCode (f : Option FaultKind) : faultOfCode (faultCode f) = f := by
  rcases f with _ | k
  · rfl
  · cases k <;> rfl

theorem faultCode_faultOfCode (c : BitVec 2) : faultCode (faultOfCode c) = c := by revert c; decide

theorem phaseCode_bijective : Function.Bijective phaseCode :=
  Function.bijective_iff_has_inverse.mpr ⟨phaseOfCode, phaseOfCode_phaseCode, phaseCode_phaseOfCode⟩

theorem faultCode_bijective : Function.Bijective faultCode :=
  Function.bijective_iff_has_inverse.mpr ⟨faultOfCode, faultOfCode_faultCode, faultCode_faultOfCode⟩

/-! ### The invariant at creation -/

theorem State.create_inv {size : Nat} (h : MemSizeOk size = true) : (State.create size).Inv where
  sizeOk := h
  memWf := ⟨.nil, by simp⟩
  faultIffHalted := by simp

end Sys2Proof.Machine

namespace Sys2Proof.Proofs.Registers
open Sys2Proof.Machine

/-- Settles O8: MOD fails where DIV does, and quotient and remainder are those of the natural numbers. -/
theorem aluModRemainder : Obligations.AluModRemainder := by
  refine fun a b => ⟨dz_div_eq_true, fun hb => ?_⟩
  rw [alu_mod_y_toNat hb, alu_div_y_toNat hb]
  exact ⟨rfl, Nat.mod_lt _ (Nat.pos_of_ne_zero hb), Nat.div_add_mod' _ _⟩

/-- Settles O12: each neighbour is joined from one byte written and one byte kept. -/
theorem overlappingWordsShareAByte : Obligations.OverlappingWordsShareAByte := by
  refine fun size m m' a v h => ⟨readWord_above_writeWord h, fun ha => ?_⟩
  obtain ⟨a, rfl⟩ := Nat.exists_eq_add_of_le' ha
  exact readWord_below_writeWord h

/-- Settles O13, by induction on the first list: the first entries agree, and so do the tails (`Memory.wf_ext`). -/
theorem canonicalMemoryIsUnique : Obligations.CanonicalMemoryIsUnique :=
  fun _ _ _ => Memory.wf_ext

/-- Settles O14: the fields of creation are its own laws, and MEM_SIZE is 4096 by `Config.memSize`. -/
theorem resetLeavesZeros : Obligations.ResetLeavesZeros :=
  ⟨rfl, fun size => ⟨rfl, rfl, rfl, rfl, rfl, rfl, readByte_create size⟩⟩

/-- Settles O15: the empty memory is canonical, and no fault is pending in FETCH (`State.create_inv`). -/
theorem resetMeetsInvariant : Obligations.ResetMeetsInvariant :=
  ⟨fun _ => State.create_inv, State.create_inv (by decide)⟩

/-- Settles O16: both code functions have an inverse. -/
theorem statusCodesAreOneToOne : Obligations.StatusCodesAreOneToOne :=
  ⟨phaseCode_bijective.existsUnique, faultCode_bijective.existsUnique, rfl, rfl, rfl, rfl, rfl, rfl, rfl, rfl,
    fun _ => ⟨rfl, rfl⟩⟩

/-- Settles O51: `oor` is the range check, under which a request does nothing, and a word written in range is read
back. -/
theorem memoryUnitTransactions : Obligations.MemoryUnitTransactions := by
  refine fun size m addr v hsize => ⟨fun req => ?oor, rfl, fun req h => ?noEffect, fun h => ?readBack⟩
  case oor =>
    rw [memoryWordAccess_oor, oor_eq_true]
    omega
  case noEffect =>
    rw [memoryWordAccess_oor] at h
    exact memoryWordAccess_of_oor req (oor_eq_true.mp h)
  case readBack =>
    rw [memoryWordAccess_oor] at h
    exact memoryWordAccess_read_after_write (oor_eq_false.mp h)

end Sys2Proof.Proofs.Registers

/-! SUPPORT. What STA answers in each of its two cases, and when an instruction halts the machine, with the frames of
the instructions (spec/41_load_store.md R122, spec/60_exceptions.md R170, R178). -/

namespace Sys2Proof.Machine

variable {s t : State}

/-! ### The two cases of STA -/

theorem exec_sta_of_writeWord_eq_some {x : Operand} {m : Memory}
    (h : writeWord s.memSize s.mem x.toNat s.ac = some m) : exec (.sta x) s = complete (s.writeMem m) := by
  simp only [exec, execSta, effectiveAddress_eq, State.storeWord, h]

theorem exec_sta_of_out_of_range {x : Operand} (h : s.memSize < x.toNat + 2) :
    exec (.sta x) s = raise .outOfRange s := by
  simp only [exec, execSta, effectiveAddress_eq, storeWord_eq_none.mpr h]

/-- Everything STA can do. -/
theorem exec_sta_cases {x : Operand} (h : exec (.sta x) s = .next t) :
    (s.memSize < x.toNat + 2 ∧ t = s.halt .outOfRange) ∨
    (x.toNat + 2 ≤ s.memSize ∧ ∃ m, writeWord s.memSize s.mem x.toNat s.ac = some m ∧
      t = (s.writeMem m).writePhase .fetch) := by
  rcases Nat.lt_or_ge s.memSize (x.toNat + 2) with hoor | hrange
  · rw [exec_sta_of_out_of_range hoor] at h
    exact .inl ⟨hoor, raise_eq_next.mp h⟩
  · obtain ⟨m, hm⟩ := exists_writeWord s.mem s.ac hrange
    rw [exec_sta_of_writeWord_eq_some hm] at h
    exact .inr ⟨hrange, m, hm, complete_eq_next.mp h⟩

theorem encodedAs_sta : EncodedAs 0x1000#16 .sta := encodedAs_of_opcodeOf (fun _ => rfl) (fun _ => rfl)

theorem sameBytesOutside_writeWord {m : Memory} {a : Nat} {v : Word}
    (h : writeWord s.memSize s.mem a v = some m) : SameBytesOutside a s ((s.writeMem m).writePhase .fetch) := by
  intro b hhi hlo
  change readByte m b = readByte s.mem b
  rw [(writeWord_spec h).2 b, if_neg hlo, if_neg hhi]

/-! ### When an instruction halts -/

/-- Everything LDA can do. -/
theorem exec_lda_cases {x : Operand} (h : exec (.lda x) s = .next t) :
    (s.memSize < x.toNat + 2 ∧ t = s.halt .outOfRange) ∨
    (x.toNat + 2 ≤ s.memSize ∧ ∃ v, t = (s.writeAc v).writePhase .fetch) := by
  rcases Nat.lt_or_ge s.memSize (x.toNat + 2) with hoor | hrange
  · rw [exec_lda_of_loadWord_eq_none (loadWord_eq_none.mpr hoor)] at h
    exact .inl ⟨hoor, raise_eq_next.mp h⟩
  · rw [exec_lda_of_loadWord_eq_some (loadWord_eq_some.mpr ⟨hrange, rfl⟩)] at h
    exact .inr ⟨hrange, _, complete_eq_next.mp h⟩

/-- An instruction that raises `k` under the condition `p`, and completes otherwise, halts exactly under `p`. -/
theorem halted_iff_of_cases {p : Prop} {k : FaultKind}
    (h : (p ∧ t = s.halt k) ∨ (¬ p ∧ t.phase = .fetch)) :
    (t.phase = .halted ↔ p) ∧ (t.phase = .halted → t.fault = some k) := by
  rcases h with ⟨hp, rfl⟩ | ⟨hp, hphase⟩
  · simp [hp]
  · simp [hp, hphase]

theorem exec_lda_halted_iff {x : Operand} (h : exec (.lda x) s = .next t) :
    (t.phase = .halted ↔ s.memSize < x.toNat + 2) ∧ (t.phase = .halted → t.fault = some .outOfRange) :=
  halted_iff_of_cases ((exec_lda_cases h).imp_right fun ⟨hrange, _, ht⟩ => ⟨hrange.not_gt, ht ▸ rfl⟩)

theorem exec_sta_halted_iff {x : Operand} (h : exec (.sta x) s = .next t) :
    (t.phase = .halted ↔ s.memSize < x.toNat + 2) ∧ (t.phase = .halted → t.fault = some .outOfRange) :=
  halted_iff_of_cases ((exec_sta_cases h).imp_right fun ⟨hrange, _, _, ht⟩ => ⟨hrange.not_gt, ht ▸ rfl⟩)

theorem aluInstr_halted_iff {op : AluOp} {x : Operand} (h : aluInstr op x s = .next t) :
    (t.phase = .halted ↔ dz op (immediate x) = true) ∧ (t.phase = .halted → t.fault = some .divisionByZero) :=
  halted_iff_of_cases ((aluInstr_cases h).imp_right fun ⟨hdz, ht⟩ => ⟨by simp [hdz], ht ▸ rfl⟩)

/-- An instruction that cannot fail never halts. -/
theorem aluInstr_completes {op : AluOp} {x : Operand} (hop : dz op (immediate x) = false)
    (h : aluInstr op x s = .next t) : t.phase = .fetch := by
  rcases aluInstr_cases h with ⟨hdz, -⟩ | ⟨-, rfl⟩
  · rw [hop] at hdz
    cases hdz
  · rfl

theorem never_halted_of_fetch {f : Option FaultKind} (h : t.phase = .fetch) :
    (t.phase = .halted ↔ False) ∧ (t.phase = .halted → t.fault = f) := by
  simp [h]

/-- No instruction writes PC, IR, MEM_SIZE or the stop input (R95). -/
theorem exec_sameControl {i : Instr} (h : exec i s = .next t) : SameControl s t := by
  rcases exec_cases h with ⟨k, rfl⟩ | ⟨v, rfl⟩ | ⟨x, m, -, -, rfl⟩ <;> exact ⟨rfl, rfl, rfl, rfl⟩

end Sys2Proof.Machine

namespace Sys2Proof.Proofs.Instructions
open Sys2Proof.Machine

/-- Settles O18: the bytes after the store are `writeWord_spec`, and the rest is what `complete` keeps. -/
theorem staStoresWord : Obligations.StaStoresWord := by
  refine ⟨encodedAs_sta, fun x s hrange => ?_⟩
  obtain ⟨m, hm⟩ := exists_writeWord s.mem s.ac hrange
  obtain ⟨-, hbytes⟩ := writeWord_spec hm
  refine ⟨_, exec_sta_of_writeWord_eq_some hm, ?hi, ?lo, sameBytesOutside_writeWord hm, rfl, rfl, rfl,
    ⟨rfl, rfl, rfl, rfl⟩⟩
  case hi => simp [hbytes, hiByte_toNat]
  case lo => simp [hbytes, loByte_toNat]

/-- Settles O19: out of range STA raises OutOfRange in the state as it is. -/
theorem staOutOfRangeWritesNothing : Obligations.StaOutOfRangeWritesNothing :=
  fun _ s hoor => ⟨_, exec_sta_of_out_of_range hoor, haltedWith_halt .outOfRange s⟩

/-- Settles O25: an instruction other than STA halts with nothing else changed, or writes AC alone (`exec_cases`). -/
theorem nonStoringFrame : Obligations.NonStoringFrame := by
  intro i s t hi h
  refine ⟨exec_sameControl h, ?_⟩
  rcases exec_cases h with ⟨k, rfl⟩ | ⟨v, rfl⟩ | ⟨x, m, hsta, -, -⟩
  · simp [SameBytes]
  · simp [SameBytes]
  · exact absurd hsta (hi x)

/-- Settles O26: STA halts with nothing else changed, or writes memory alone (`exec_sta_cases`). -/
theorem staFrame : Obligations.StaFrame := by
  intro x s t h
  refine ⟨exec_sameControl h, ?_⟩
  rw [effectiveAddress_eq]
  rcases exec_sta_cases h with ⟨-, rfl⟩ | ⟨-, m, hm, rfl⟩
  · simp [SameBytes, SameBytesOutside]
  · have houtside := sameBytesOutside_writeWord hm
    simp [houtside]

/-- Settles O27: each instruction raises its one fault under its one condition, or completes. -/
theorem instructionFaultKinds : Obligations.InstructionFaultKinds := by
  intro i s t h
  cases i with
  | lda x => exact exec_lda_halted_iff h
  | sta x => exact exec_sta_halted_iff h
  | add x => exact never_halted_of_fetch (aluInstr_completes (op := .add) rfl h)
  | mul x => exact never_halted_of_fetch (aluInstr_completes (op := .mul) rfl h)
  | div x =>
    obtain ⟨hiff, hfault⟩ := aluInstr_halted_iff (op := .div) h
    exact ⟨hiff.trans dz_div_immediate_eq_true, hfault⟩
  | mod x =>
    obtain ⟨hiff, hfault⟩ := aluInstr_halted_iff (op := .mod) h
    exact ⟨hiff.trans (dz_mod_eq_dz_div _ ▸ dz_div_immediate_eq_true), hfault⟩
  | sea x => exact never_halted_of_fetch (complete_eq_next.mp h ▸ rfl)

end Sys2Proof.Proofs.Instructions

/-! SUPPORT. What a step answers in each of its cases, what an execute phase keeps, and the invariant along a step
(spec/40_cycle.md R90 to R105, spec/10_state.md R26). -/

namespace Sys2Proof

theorem decode_of_decodeBytes_eq_ok {hi lo : Byte} {i : Instr} (h : decodeBytes [hi, lo] = .ok (i, [])) :
    decode (wordOfBytes hi lo) = .ok i := by
  cases hword : decode (wordOfBytes hi lo) <;> simp_all [decodeBytes]

end Sys2Proof

namespace Sys2Proof.Machine

variable {s t : State}

/-! ### The execute phase -/

theorem execute_of_decode_ok {i : Instr} (h : decode s.ir = .ok i) : execute s = exec i s := by
  rw [execute, h]

/-- An execute phase writes neither PC nor IR (R95). -/
theorem execute_sameControl (h : execute s = .next t) : SameControl s t := by
  rcases execute_cases h with ⟨i, -, hi⟩ | ⟨e, -, rfl⟩
  · exact exec_sameControl hi
  · exact ⟨rfl, rfl, rfl, rfl⟩

/-- An execute phase halts with nothing else changed, or returns to FETCH with `fault` as it was (R95, R97). -/
theorem execute_halted_or_fetch (h : execute s = .next t) :
    (∃ k, t = s.halt k) ∨ (t.phase = .fetch ∧ t.fault = s.fault) := by
  rcases execute_cases h with ⟨i, -, hi⟩ | ⟨e, -, rfl⟩
  · rcases exec_cases hi with ⟨k, rfl⟩ | ⟨v, rfl⟩ | ⟨x, m, -, -, rfl⟩
    · exact .inl ⟨k, rfl⟩
    · exact .inr ⟨rfl, rfl⟩
    · exact .inr ⟨rfl, rfl⟩
  · exact .inl ⟨_, rfl⟩

theorem execute_halt_of_halted (h : execute s = .next t) (ht : t.phase = .halted) : ∃ k, t = s.halt k := by
  rcases execute_halted_or_fetch h with hk | ⟨hphase, -⟩
  · exact hk
  · rw [ht] at hphase
    cases hphase

/-! ### The cases of a step and of a transition -/

theorem step_of_stopAsserted (hp : s.phase = .fetch) (hs : s.stopAsserted = true) :
    step s = .next (s.sampled.writePhase .stopped) := by
  simp [step, runCycle, hp, hs]

theorem step_of_fetchWord_eq_none (hr : s.Ready) (hw : s.fetchWord = none) :
    step s = raise .outOfRange s.sampled := by
  simp [step, runCycle, hr.inFetch, hr.noStop, hw]

theorem step_of_fetchWord_eq_some {w : Word} (hr : s.Ready) (hw : s.fetchWord = some w) :
    step s = execute (s.sampled.fetched w) := by
  simp [step, runCycle, hr.inFetch, hr.noStop, hw]

theorem step_of_execute (hp : s.phase = .execute) : step s = execute s := by
  simp [step, runCycle, hp]

theorem transition_of_stopAsserted (hp : s.phase = .fetch) (hs : s.stopAsserted = true) :
    transition s = .next (s.sampled.writePhase .stopped) := by
  simp [transition, hp, hs]

theorem transition_of_ready (hr : s.Ready) : transition s = fetch s.sampled := by
  simp [transition, hr.inFetch, hr.noStop]

theorem transition_of_execute (hp : s.phase = .execute) : transition s = execute s := by
  simp [transition, hp]

/-- From any phase but FETCH a step is one transition: nothing is fused (R105). -/
theorem step_eq_transition (hp : s.phase ≠ .fetch) : step s = transition s := by
  cases h : s.phase with
  | fetch => exact absurd h hp
  | execute => rw [step_of_execute h, transition_of_execute h]
  | halted => simp [step, runCycle, transition, h]
  | stopped => simp [step, runCycle, transition, h]

theorem step_of_terminal (h : s.Terminal) : ∃ r, step s = .fault r := by
  rcases h with hp | hp
  · exact ⟨.halted, by simp [step, runCycle, hp]⟩
  · exact ⟨.stopped, by simp [step, runCycle, hp]⟩

/-- What FETCH meets: a stop, no word at PC, or a word. -/
theorem fetch_phase_cases (hp : s.phase = .fetch) :
    s.stopAsserted = true ∨ (s.Ready ∧ s.fetchWord = none) ∨ (s.Ready ∧ ∃ w, s.fetchWord = some w) := by
  cases hs : s.stopAsserted with
  | true => exact .inl rfl
  | false =>
    cases hw : s.fetchWord with
    | none => exact .inr (.inl ⟨⟨hp, hs⟩, rfl⟩)
    | some w => exact .inr (.inr ⟨⟨hp, hs⟩, w, rfl⟩)

theorem phase_of_not_terminal (h : ¬ s.Terminal) : s.phase = .fetch ∨ s.phase = .execute := by
  cases hp : s.phase with
  | fetch => exact .inl rfl
  | execute => exact .inr rfl
  | halted => exact absurd (.inl hp) h
  | stopped => exact absurd (.inr hp) h

theorem step_total (h : ¬ s.Terminal) : ∃ t, step s = .next t := by
  rcases phase_of_not_terminal h with hp | hp
  · rcases fetch_phase_cases hp with hs | ⟨hr, hw⟩ | ⟨hr, w, hw⟩
    · exact ⟨_, step_of_stopAsserted hp hs⟩
    · exact ⟨_, step_of_fetchWord_eq_none hr hw⟩
    · rw [step_of_fetchWord_eq_some hr hw]
      exact execute_total _
  · rw [step_of_execute hp]
    exact execute_total s

/-- From FETCH, one transition ends the step, or leads to EXECUTE and the step is the transition after it (R105). -/
theorem transition_fetch_cases (hp : s.phase = .fetch) : ∃ u, transition s = .next u ∧
    ((u.phase ≠ .execute ∧ step s = .next u) ∨ (u.phase = .execute ∧ step s = transition u)) := by
  rcases fetch_phase_cases hp with hs | ⟨hr, hw⟩ | ⟨hr, w, hw⟩
  · refine ⟨_, transition_of_stopAsserted hp hs, .inl ⟨?_, step_of_stopAsserted hp hs⟩⟩
    simp
  · refine ⟨s.sampled.halt .outOfRange, ?_, .inl ⟨?_, step_of_fetchWord_eq_none hr hw⟩⟩
    · rw [transition_of_ready hr, fetch_of_fetchWord_eq_none (s := s.sampled) hw, raise]
    · simp
  · refine ⟨s.sampled.fetched w, ?_, .inr ⟨rfl, ?_⟩⟩
    · rw [transition_of_ready hr, fetch_of_fetchWord_eq_some (s := s.sampled) hw]
    · rw [step_of_fetchWord_eq_some hr hw, transition_of_execute rfl]

/-! ### What a step keeps -/

theorem step_phase_ne_execute (h : step s = .next t) : t.phase ≠ .execute := by
  have hexecute : ∀ {u}, execute u = .next t → t.phase ≠ .execute := fun hu => by
    rcases execute_halted_or_fetch hu with ⟨k, rfl⟩ | ⟨hphase, -⟩ <;> simp [*]
  rcases step_cases h with ⟨-, -, rfl⟩ | ⟨-, -, -, rfl⟩ | ⟨-, -, w, -, hw⟩ | ⟨-, hs⟩
  · simp
  · simp
  · exact hexecute hw
  · exact hexecute hs

theorem step_fetch_or_terminal (h : step s = .next t) : t.phase = .fetch ∨ t.Terminal := by
  by_cases hterm : t.Terminal
  · exact .inr hterm
  · exact .inl ((phase_of_not_terminal hterm).resolve_right (step_phase_ne_execute h))

theorem step_memSize (h : step s = .next t) : t.memSize = s.memSize := by
  rcases step_cases h with ⟨-, -, rfl⟩ | ⟨-, -, -, rfl⟩ | ⟨-, -, w, -, hw⟩ | ⟨-, hs⟩
  · rfl
  · rfl
  · exact (execute_sameControl hw).memSize
  · exact (execute_sameControl hs).memSize

/-- PC changes only by a fetch of a word in range (R93, R103). -/
theorem step_pc (h : step s = .next t) :
    t.pc = s.pc ∨ (s.phase = .fetch ∧ s.pc.toNat + 2 ≤ s.memSize ∧ t.pc.toNat = (s.pc.toNat + 2) % 65536) := by
  rcases step_cases h with ⟨-, -, rfl⟩ | ⟨-, -, -, rfl⟩ | ⟨hp, -, w, hw, hexec⟩ | ⟨-, hs⟩
  · exact .inl rfl
  · exact .inl rfl
  · have hpc : t.pc.toNat = (s.pc.toNat + 2) % 65536 := by
      rw [(execute_sameControl hexec).pc]
      exact fetched_pc_toNat w s.sampled
    exact .inr ⟨hp, (fetchWord_eq_some.mp hw).1, hpc⟩
  · exact .inl (execute_sameControl hs).pc

/-! ### The stop input in EXECUTE -/

/-- The state with other samples of the stop input to come. -/
def State.withStops (l : List Bool) (s : State) : State := { s with stopReqs := l }

theorem aluInstr_withStops {op : AluOp} {x : Operand} (l : List Bool) (h : aluInstr op x s = .next t) :
    aluInstr op x (s.withStops l) = .next (t.withStops l) := by
  rcases aluInstr_cases h with ⟨hdz, rfl⟩ | ⟨hdz, rfl⟩
  · simp only [aluInstr, alu, hdz, if_true]
    rfl
  · simp only [aluInstr, alu, hdz, Bool.false_eq_true, if_false]
    rfl

theorem exec_withStops {i : Instr} (l : List Bool) (h : exec i s = .next t) :
    exec i (s.withStops l) = .next (t.withStops l) := by
  cases i with
  | lda x =>
    cases hw : s.loadWord x.toNat with
    | none =>
      rw [exec_lda_of_loadWord_eq_none hw, raise_eq_next] at h
      rw [exec_lda_of_loadWord_eq_none (s := s.withStops l) hw, h]
      rfl
    | some v =>
      rw [exec_lda_of_loadWord_eq_some hw, complete_eq_next] at h
      rw [exec_lda_of_loadWord_eq_some (s := s.withStops l) hw, h]
      rfl
  | sta x =>
    rcases exec_sta_cases h with ⟨hoor, rfl⟩ | ⟨-, m, hm, rfl⟩
    · exact exec_sta_of_out_of_range (s := s.withStops l) hoor
    · exact exec_sta_of_writeWord_eq_some (s := s.withStops l) hm
  | add x => exact aluInstr_withStops (op := .add) l h
  | mul x => exact aluInstr_withStops (op := .mul) l h
  | div x => exact aluInstr_withStops (op := .div) l h
  | mod x => exact aluInstr_withStops (op := .mod) l h
  | sea x =>
    obtain rfl := complete_eq_next.mp h
    rfl

theorem execute_withStops (l : List Bool) (h : execute s = .next t) :
    execute (s.withStops l) = .next (t.withStops l) := by
  rcases execute_cases h with ⟨i, hi, hexec⟩ | ⟨e, he, rfl⟩
  · rw [execute_of_decode_ok (s := s.withStops l) hi]
    exact exec_withStops l hexec
  · rw [execute_of_decode_error (s := s.withStops l) he]
    rfl

/-! ### The invariant along a step -/

/-- In FETCH and EXECUTE no fault is pending, and neither is it in STOPPED. -/
theorem State.Inv.fault_eq_none (h : s.Inv) (hp : s.phase ≠ .halted) : s.fault = none := by
  by_contra hf
  exact hp (h.faultIffHalted.mp hf)

/-- A state that is not halted and has no fault pending meets the invariant if its size and memory do. -/
theorem State.Inv.of_running (hsize : MemSizeOk s.memSize = true) (hmem : Memory.wf s.memSize s.mem)
    (hp : s.phase ≠ .halted) (hf : s.fault = none) : s.Inv where
  sizeOk := hsize
  memWf := hmem
  faultIffHalted := by simp [hp, hf]

theorem State.Inv.halt (h : s.Inv) (k : FaultKind) : (s.halt k).Inv where
  sizeOk := h.sizeOk
  memWf := h.memWf
  faultIffHalted := by simp

theorem State.Inv.sampled (h : s.Inv) : s.sampled.Inv := ⟨h.sizeOk, h.memWf, h.faultIffHalted⟩

theorem State.Inv.fetched (h : s.Inv) (hp : s.phase = .fetch) (w : Word) : (s.fetched w).Inv :=
  .of_running h.sizeOk h.memWf (by simp) (h.fault_eq_none (by simp [hp]))

theorem execute_memWf (hm : Memory.wf s.memSize s.mem) (h : execute s = .next t) : Memory.wf s.memSize t.mem := by
  rcases execute_cases h with ⟨i, -, hi⟩ | ⟨e, -, rfl⟩
  · rcases exec_cases hi with ⟨k, rfl⟩ | ⟨v, rfl⟩ | ⟨x, m, -, hwrite, rfl⟩
    · exact hm
    · exact hm
    · exact writeWord_wf hm hwrite
  · exact hm

theorem State.Inv.execute (h : s.Inv) (hp : s.phase = .execute) (hexec : execute s = .next t) : t.Inv := by
  rcases execute_halted_or_fetch hexec with ⟨k, rfl⟩ | ⟨hphase, hfault⟩
  · exact h.halt k
  · have hsize := (execute_sameControl hexec).memSize
    refine .of_running (hsize ▸ h.sizeOk) (hsize ▸ execute_memWf h.memWf hexec) (by simp [hphase]) ?_
    rw [hfault]
    exact h.fault_eq_none (by simp [hp])

theorem State.Inv.step (h : s.Inv) (hstep : step s = .next t) : t.Inv := by
  rcases step_cases hstep with ⟨hp, -, rfl⟩ | ⟨-, -, -, rfl⟩ | ⟨hp, -, w, -, hw⟩ | ⟨hp, hs⟩
  · exact .of_running h.sizeOk h.memWf (by simp) (h.fault_eq_none (by simp [hp]))
  · exact h.sampled.halt .outOfRange
  · exact (h.sampled.fetched hp w).execute rfl hw
  · exact h.execute hp hs

end Sys2Proof.Machine

namespace Sys2Proof.Proofs.Cycle
open Sys2Proof.Machine

/-- Settles O40: the fetch's writes keep the invariant, and so does an execute phase, whose one memory write keeps the
canonical form (`writeWord_wf`). -/
theorem stepKeepsInvariant : Obligations.StepKeepsInvariant :=
  fun _ _ h hstep => h.step hstep

/-- Settles O29: the bytes at PC decode to `i`, so the word fetched is the word of `i`. -/
theorem stepRunsDecodedInstruction : Obligations.StepRunsDecodedInstruction := by
  refine ⟨fun s i hr hrange hbytes => ?fetch, fun s i hp hi => ?execute⟩
  case fetch =>
    have hword := fetchWord_eq_some.mpr ⟨hrange, rfl⟩
    rw [step_of_fetchWord_eq_some hr hword, ← decode_eq_ok.mp (decode_of_decodeBytes_eq_ok hbytes)]
    exact execute_of_decode_ok (decode_encode i)
  case execute =>
    rw [step_of_execute hp, execute_of_decode_ok hi]

/-- Settles O30: there is no word at PC, so the step raises OutOfRange before any write. -/
theorem fetchOutOfRangeHalts : Obligations.FetchOutOfRangeHalts :=
  fun s hr hoor => ⟨_, step_of_fetchWord_eq_none hr (fetchWord_eq_none.mpr hoor), haltedWith_halt .outOfRange s.sampled⟩

/-- Settles O31: the fetched word is rejected by its opcode (`decode_eq_error`), so the execute phase raises
UnknownOpcode in the state the fetch left. -/
theorem unknownOpcodeHalts : Obligations.UnknownOpcodeHalts := by
  intro s w hr hw hlow hhigh
  have hstep : step s = raise .unknownOpcode (s.sampled.fetched w) := by
    rw [step_of_fetchWord_eq_some hr hw]
    exact execute_of_decode_error (decode_eq_error.mpr ⟨rfl, hlow, hhigh⟩)
  exact ⟨_, hstep, rfl, fetched_pc_toNat w s.sampled, rfl, rfl, rfl, rfl, rfl⟩

/-- Settles O32: the stop is sampled before the fetch. -/
theorem stopPrecedesFetch : Obligations.StopPrecedesFetch :=
  fun _ hp hs => ⟨_, step_of_stopAsserted hp hs, rfl, rfl, rfl, rfl, rfl, rfl, rfl, rfl⟩

/-- Settles O33: no instruction reads the stop input (`execute_withStops`). -/
theorem executeIgnoresStop : Obligations.ExecuteIgnoresStop := by
  intro s t l hp h
  rw [step_of_execute hp] at h
  exact (step_of_execute (s := s.withStops l) hp).trans (execute_withStops l h)

/-- Settles O34: a terminal phase has no step, and every other state answers a next state (`step_total`). -/
theorem noStepExactlyWhenTerminal : Obligations.NoStepExactlyWhenTerminal := by
  intro s
  by_cases hterm : s.Terminal
  · obtain ⟨r, hr⟩ := step_of_terminal hterm
    simp [hr, hterm]
  · obtain ⟨t, ht⟩ := step_total hterm
    simp [ht, hterm, step_phase_ne_execute ht]

/-- Settles O35: a step halts at its fetch, or in the execute phase, which then changes only `phase` and `fault`. -/
theorem faultsArePrecise : Obligations.FaultsArePrecise := by
  intro s t h ht
  rcases step_cases h with ⟨-, -, rfl⟩ | ⟨-, -, -, rfl⟩ | ⟨hp, -, w, hw, hexec⟩ | ⟨-, hexec⟩
  · cases ht
  · exact ⟨rfl, rfl, rfl, .inl ⟨rfl, rfl⟩⟩
  · obtain ⟨k, rfl⟩ := execute_halt_of_halted hexec ht
    exact ⟨rfl, rfl, rfl, .inr ⟨hp, rfl, hw⟩⟩
  · obtain ⟨k, rfl⟩ := execute_halt_of_halted hexec ht
    exact ⟨rfl, rfl, rfl, .inl ⟨rfl, rfl⟩⟩

/-- Settles O36: only the fetch writes PC (`step_pc`). -/
theorem pcChangesOnlyByFetch : Obligations.PcChangesOnlyByFetch :=
  fun _ _ => step_pc

/-- Settles O37: from FETCH by `transition_fetch_cases`, from any other phase by `step_eq_transition`. -/
theorem stepRefinesTransitions : Obligations.StepRefinesTransitions := by
  refine fun s => ⟨step_eq_transition, fun t hp htrans ht => ?executes, fun t hp htrans ht => ?ends, fun hp => ?total⟩
  all_goals obtain ⟨u, hu, hcases⟩ := transition_fetch_cases hp
  case executes =>
    cases htrans.symm.trans hu
    exact (hcases.resolve_left fun hends => hends.1 ht).2
  case ends =>
    cases htrans.symm.trans hu
    exact (hcases.resolve_right fun hexec => ht hexec.1).2
  case total => exact ⟨u, hu⟩

/-- Settles O38: a stop, a fetch out of range, or an execute phase, which completes or halts. -/
theorem fusedStepOutcomes : Obligations.FusedStepOutcomes := by
  intro s hp
  rcases fetch_phase_cases hp with hs | ⟨hr, hw⟩ | ⟨hr, w, hw⟩
  · exact ⟨_, step_of_stopAsserted hp hs, .inr (.inr (.inr ⟨hs, rfl⟩))⟩
  · exact ⟨_, step_of_fetchWord_eq_none hr hw,
      .inr (.inl ⟨haltedWith_halt .outOfRange s.sampled, fetchWord_eq_none.mp hw⟩)⟩
  · obtain ⟨t, ht⟩ := execute_total (s.sampled.fetched w)
    refine ⟨t, (step_of_fetchWord_eq_some hr hw).trans ht, ?_⟩
    rcases execute_halted_or_fetch ht with ⟨k, rfl⟩ | ⟨hphase, -⟩
    · exact .inr (.inr (.inl ⟨k, rfl, rfl, rfl, hw, rfl, rfl⟩))
    · obtain ⟨hpc, hir, -, -⟩ := execute_sameControl ht
      exact .inl ⟨hphase, hpc, hir ▸ hw⟩

/-- Settles O39: the word stored at PC is read back by the next fetch (`readWord_writeWord`). -/
theorem nextFetchSeesStore : Obligations.NextFetchSeesStore := by
  intro x s hstop hpc hrange
  obtain ⟨m, hm⟩ := exists_writeWord s.mem s.ac hrange
  refine ⟨_, exec_sta_of_writeWord_eq_some hm, step_of_fetchWord_eq_some ⟨rfl, hstop⟩ ?_⟩
  change readWord s.memSize m s.pc.toNat = some s.ac
  rw [hpc]
  exact readWord_writeWord hm

end Sys2Proof.Proofs.Cycle

/-! SUPPORT. PC along a run of completed cycles, and the end of every run, for MEM_SIZE up to 65535
(spec/40_cycle.md R93, R101, spec/70_reset_and_hazards.md R211). -/

namespace Sys2Proof.Machine

variable {s t : State} {n : Nat}

/-! ### Runs -/

theorem runSteps_succ_of_next (h : step s = .next t) : runSteps (n + 1) s = runSteps n t := by
  rw [runSteps, h]

theorem runSteps_succ_of_terminal (h : s.Terminal) : ∃ r, runSteps (n + 1) s = .fault r := by
  obtain ⟨r, hr⟩ := step_of_terminal h
  exact ⟨r, by rw [runSteps, hr]⟩

theorem runSteps_succ_eq_next (h : runSteps (n + 1) s = .next t) :
    ∃ u, step s = .next u ∧ runSteps n u = .next t := by
  unfold runSteps at h
  split at h
  · next u hu => exact ⟨u, hu, h⟩
  · cases h
  · cases h

theorem runSteps_memSize (h : runSteps n s = .next t) : t.memSize = s.memSize := by
  induction n generalizing s with
  | zero =>
    cases h
    rfl
  | succ n ih =>
    obtain ⟨u, hu, hrun⟩ := runSteps_succ_eq_next h
    rw [ih hrun, step_memSize hu]

/-- A run that ends in FETCH began outside the terminal phases. -/
theorem not_terminal_of_runSteps (h : runSteps n s = .next t) (ht : t.phase = .fetch) : ¬ s.Terminal := by
  intro hterm
  cases n with
  | zero =>
    cases h
    rcases hterm with hp | hp <;> simp [hp] at ht
  | succ n =>
    obtain ⟨r, hr⟩ := runSteps_succ_of_terminal (n := n) hterm
    cases h.symm.trans hr

/-! ### PC -/

/-- A step from FETCH to FETCH is a completed cycle: a word in range was fetched, and PC has advanced (R93, R96). -/
theorem step_completed (hp : s.phase = .fetch) (h : step s = .next t) (ht : t.phase = .fetch) :
    s.pc.toNat + 2 ≤ s.memSize ∧ t.pc.toNat = (s.pc.toNat + 2) % 65536 := by
  rcases step_cases h with ⟨-, -, rfl⟩ | ⟨-, -, -, rfl⟩ | ⟨-, -, w, hw, hexec⟩ | ⟨hp', -⟩
  · cases ht
  · cases ht
  · have hpc := fetched_pc_toNat w s.sampled
    rw [← (execute_sameControl hexec).pc] at hpc
    exact ⟨(fetchWord_eq_some.mp hw).1, hpc⟩
  · rw [hp] at hp'
    cases hp'

/-- Up to MEM_SIZE 65535 the advanced PC does not wrap. -/
theorem step_completed_pc (hsize : s.memSize ≤ 65535) (hp : s.phase = .fetch) (h : step s = .next t)
    (ht : t.phase = .fetch) : t.pc.toNat = s.pc.toNat + 2 ∧ t.pc.toNat ≤ s.memSize := by
  obtain ⟨hrange, hpc⟩ := step_completed hp h ht
  omega

/-- PC after a run of completed cycles (R101). -/
theorem runSteps_pc (hp : s.phase = .fetch) (hsize : s.memSize ≤ 65535) (h : runSteps n s = .next t)
    (ht : t.phase = .fetch) : t.pc.toNat = s.pc.toNat + 2 * n ∧ (n ≠ 0 → t.pc.toNat ≤ s.memSize) := by
  induction n generalizing s with
  | zero =>
    cases h
    simp
  | succ n ih =>
    obtain ⟨u, hu, hrun⟩ := runSteps_succ_eq_next h
    have hup : u.phase = .fetch := (step_fetch_or_terminal hu).resolve_right (not_terminal_of_runSteps hrun ht)
    have husize := step_memSize hu
    obtain ⟨hupc, hule⟩ := step_completed_pc hsize hp hu hup
    obtain ⟨htpc, htle⟩ := ih hup (by omega) hrun
    rcases Nat.eq_zero_or_pos n with rfl | hn
    · omega
    · have := htle hn.ne'
      omega

/-! ### The end of a run -/

/-- From FETCH each completed cycle uses up two of the addresses from PC to MEM_SIZE (R101). -/
theorem runSteps_ends_of_fetch {n : Nat} {s : State} (hp : s.phase = .fetch) (hsize : s.memSize ≤ 65535)
    (hn : (s.memSize - s.pc.toNat) / 2 ≤ n) : ∃ r, runSteps (n + 2) s = .fault r := by
  obtain ⟨t, ht⟩ := step_total (s := s) (by simp [State.Terminal, hp])
  rw [runSteps_succ_of_next ht]
  rcases step_fetch_or_terminal ht with htp | hterm
  · have htsize := step_memSize ht
    have hrange := (step_completed hp ht htp).1
    have hpc := (step_completed_pc hsize hp ht htp).1
    cases n with
    | zero => omega
    | succ n => exact runSteps_ends_of_fetch htp (by omega) (by omega)
  · exact runSteps_succ_of_terminal hterm

end Sys2Proof.Machine

namespace Sys2Proof.Proofs.Runs
open Sys2Proof.Machine

/-- Settles O41: PC is kept or advanced by a fetch in range (`step_pc`), and MEM_SIZE never changes. -/
theorem pcStaysEvenAndBounded : Obligations.PcStaysEvenAndBounded := by
  intro s t h
  have hsize := step_memSize h
  rcases step_pc h with hpc | ⟨-, hrange, hpc⟩
  · rw [hpc, hsize]
    exact ⟨id, fun _ => id⟩
  · omega

/-- Settles O42, by induction on the number of cycles (`runSteps_pc`). -/
theorem pcAfterCycles : Obligations.PcAfterCycles :=
  fun _ _ _ => runSteps_pc

/-- Settles O43: from FETCH by `runSteps_ends_of_fetch`; an execute phase, which keeps PC, comes at most once before. -/
theorem everyRunEnds : Obligations.EveryRunEnds := by
  intro s hsize
  by_cases hterm : s.Terminal
  · exact runSteps_succ_of_terminal hterm
  rcases phase_of_not_terminal hterm with hp | hp
  · exact runSteps_ends_of_fetch hp hsize (Nat.le_succ _)
  · obtain ⟨t, ht⟩ := execute_total s
    obtain ⟨hpc, -, htsize, -⟩ := execute_sameControl ht
    have hstep := (step_of_execute hp).trans ht
    rw [runSteps_succ_of_next hstep]
    rcases step_fetch_or_terminal hstep with htp | htterm
    · exact runSteps_ends_of_fetch htp (by omega) (by rw [hpc, htsize])
    · exact runSteps_succ_of_terminal htterm

/-- Settles O44: PC is 2n (`runSteps_pc`), within memory but with no word left above it. -/
theorem completedRunHaltsAtTopOfMemory : Obligations.CompletedRunHaltsAtTopOfMemory := by
  intro n s u hp hsize hpc0 hrun hr hoor
  obtain ⟨hpc, hle⟩ := runSteps_pc hp hsize hrun hr.inFetch
  have husize := runSteps_memSize hrun
  have hzero : s.pc.toNat = 0 := by simp [hpc0]
  have hcount : n = s.memSize / 2 := by
    rcases Nat.eq_zero_or_pos n with rfl | hn
    · omega
    · have := hle hn.ne'
      omega
  have htop : u.pc.toNat = 2 * (s.memSize / 2) := by omega
  exact ⟨hcount, _, step_of_fetchWord_eq_none hr (fetchWord_eq_none.mpr hoor), rfl, rfl, htop, rfl⟩

end Sys2Proof.Proofs.Runs

/-! SUPPORT. The program load word by word, and the lines of program source from their characters to their word
(spec/30_encoding.md R83 to R87, the lexical rules of 92 D12). -/

namespace Sys2Proof.Machine

/-! ### The program load -/

section Load

variable {size a : Nat} {m m' : Memory} {w : Word} {ws : List Word}

theorem loadFrom_cons_of_writeWord {m₁ : Memory} (h : writeWord size m a w = some m₁) :
    loadFrom size a m (w :: ws) = loadFrom size (a + 2) m₁ ws := by
  rw [loadFrom, h]

theorem loadFrom_cons_eq_some (h : loadFrom size a m (w :: ws) = some m') :
    ∃ m₁, writeWord size m a w = some m₁ ∧ loadFrom size (a + 2) m₁ ws = some m' := by
  unfold loadFrom at h
  split at h
  · cases h
  · next m₁ hm₁ => exact ⟨m₁, hm₁, h⟩

/-- The load fails exactly where the words do not fit (R87). -/
theorem loadFrom_eq_none (ha : a ≤ size) : loadFrom size a m ws = none ↔ size < a + 2 * ws.length := by
  induction ws generalizing a m with
  | nil => simp [loadFrom, ha]
  | cons w ws ih =>
    rw [List.length_cons]
    rcases Nat.lt_or_ge size (a + 2) with hoor | hrange
    · have hnone : loadFrom size a m (w :: ws) = none := by rw [loadFrom, writeWord_eq_none.mpr hoor]
      simp only [hnone, true_iff]
      omega
    · obtain ⟨m₁, hm₁⟩ := exists_writeWord m w hrange
      rw [loadFrom_cons_of_writeWord hm₁, ih hrange]
      omega

theorem exists_loadFrom (m : Memory) (h : a + 2 * ws.length ≤ size) : ∃ m', loadFrom size a m ws = some m' := by
  rw [← Option.ne_none_iff_exists', Ne, loadFrom_eq_none (by omega)]
  omega

/-- The load leaves every byte outside the words as it was. -/
theorem loadFrom_frame (h : loadFrom size a m ws = some m') {b : Nat} (hb : b < a ∨ a + 2 * ws.length ≤ b) :
    readByte m' b = readByte m b := by
  induction ws generalizing a m with
  | nil =>
    cases h
    rfl
  | cons w ws ih =>
    obtain ⟨m₁, hm₁, hload⟩ := loadFrom_cons_eq_some h
    rw [List.length_cons] at hb
    rw [ih hload (by omega), (writeWord_spec hm₁).2, if_neg (by omega), if_neg (by omega)]

theorem loadFrom_readWord (h : loadFrom size a m ws = some m') {k : Nat} (hk : ws[k]? = some w) :
    readWord size m' (a + 2 * k) = some w := by
  induction ws generalizing a m k with
  | nil => simp at hk
  | cons v ws ih =>
    obtain ⟨m₁, hm₁, hload⟩ := loadFrom_cons_eq_some h
    cases k with
    | zero =>
      obtain rfl : v = w := by simpa using hk
      rw [← readWord_writeWord hm₁]
      exact readWord_congr (loadFrom_frame hload (by omega)) (loadFrom_frame hload (by omega))
    | succ k =>
      have := ih hload (by simpa using hk)
      rwa [Nat.mul_succ, Nat.add_comm (2 * k), ← Nat.add_assoc]

theorem loadFrom_wf (hm : Memory.wf size m) (h : loadFrom size a m ws = some m') : Memory.wf size m' := by
  induction ws generalizing a m with
  | nil =>
    cases h
    exact hm
  | cons w ws ih =>
    obtain ⟨m₁, hm₁, hload⟩ := loadFrom_cons_eq_some h
    exact ih (writeWord_wf hm hm₁) hload

end Load

/-! ### Hexadecimal digits -/

theorem hexDigitValue_hexDigit (upper : Bool) {n : Nat} (hn : n < 16) :
    hexDigitValue (hexDigit upper n) = some n := by
  revert n
  cases upper <;> decide

theorem hexDigit_uppercase {n : Nat} (hn : n < 16) :
    ('0' ≤ hexDigit true n ∧ hexDigit true n ≤ '9') ∨ ('A' ≤ hexDigit true n ∧ hexDigit true n ≤ 'F') := by
  revert n
  decide

theorem hexValueFrom_hexDigit_cons (upper : Bool) {n : Nat} (hn : n < 16) (acc : Nat) (cs : List Char) :
    hexValueFrom acc (hexDigit upper n :: cs) = hexValueFrom (acc * 16 + n) cs := by
  rw [hexValueFrom, hexDigitValue_hexDigit upper hn]

/-- Every character of a snapshot is a digit's. -/
theorem mem_snapshotWord {w : Word} {c : Char} (h : c ∈ snapshotWord w) : ∃ n < 16, c = hexDigit true n := by
  simp only [snapshotWord, List.mem_cons, List.not_mem_nil, or_false] at h
  rcases h with rfl | rfl | rfl | rfl <;> exact ⟨_, Nat.mod_lt _ (by decide), rfl⟩

/-- The four digits of a word have its value. -/
theorem hexValueFrom_snapshotWord (w : Word) : hexValueFrom 0 (snapshotWord w) = some w.toNat := by
  have hw := w.isLt
  have hdigit (n : Nat) : n % 16 < 16 := Nat.mod_lt n (by decide)
  simp only [snapshotWord, hexValueFrom_hexDigit_cons true (hdigit _)]
  refine congrArg some ?_
  omega

/-! ### The tokens of a line -/

/-- A character that belongs to a token of a line and is not dropped at its end. -/
def IsTokenChar (c : Char) : Prop := isSeparator c = false ∧ c ≠ '\r'

theorem isTokenChar_of_mem_spelling {i : Instr} {c : Char} (h : c ∈ i.spelling) : IsTokenChar c := by
  unfold IsTokenChar
  revert c
  cases i <;> simp [Instr.spelling, isSeparator]

theorem isTokenChar_hexDigit {n : Nat} (hn : n < 16) : IsTokenChar (hexDigit true n) := by
  unfold IsTokenChar
  revert n
  decide

theorem isTokenChar_of_mem_snapshotWord {w : Word} {c : Char} (h : c ∈ snapshotWord w) : IsTokenChar c := by
  obtain ⟨n, hn, rfl⟩ := mem_snapshotWord h
  exact isTokenChar_hexDigit hn

theorem dropReturn_eq_self {line : List Char} (h : ∀ c ∈ line, c ≠ '\r') : dropReturn line = line := by
  induction line with
  | nil => rfl
  | cons c cs ih =>
    obtain ⟨hc, hcs⟩ := List.forall_mem_cons.mp h
    cases cs with
    | nil => simp [dropReturn, hc]
    | cons d cs => rw [dropReturn, ih hcs]

/-- Characters of one token are collected before the rest of the line is read. -/
theorem tokensFrom_append {token : List Char} (h : ∀ c ∈ token, IsTokenChar c) (cur rest : List Char) :
    tokensFrom cur (token ++ rest) = tokensFrom (token.reverse ++ cur) rest := by
  induction token generalizing cur with
  | nil => rfl
  | cons c cs ih =>
    obtain ⟨hc, hcs⟩ := List.forall_mem_cons.mp h
    rw [List.cons_append, tokensFrom, if_neg (by simp [hc.1]), ih hcs, List.reverse_cons, List.append_assoc]
    rfl

theorem tokensFrom_two_tokens {t u : List Char} (ht : ∀ c ∈ t, IsTokenChar c) (hu : ∀ c ∈ u, IsTokenChar c)
    (ht0 : t ≠ []) (hu0 : u ≠ []) : tokensFrom [] (t ++ ' ' :: u) = [t, u] := by
  have hlast : tokensFrom [] u = [u] := by
    have := tokensFrom_append hu [] []
    simpa [tokensFrom, hu0] using this
  rw [tokensFrom_append ht, tokensFrom, if_pos (by decide), hlast]
  simp [ht0]

theorem tokensFrom_separators {line : List Char} (h : ∀ c ∈ line, isSeparator c = true) :
    tokensFrom [] line = [] := by
  induction line with
  | nil => rfl
  | cons c cs ih =>
    obtain ⟨hc, hcs⟩ := List.forall_mem_cons.mp h
    simp [tokensFrom, hc, ih hcs]

theorem ne_return_of_isSeparator {c : Char} (h : isSeparator c = true) : c ≠ '\r' := by
  rintro rfl
  exact absurd h (by decide)

/-! ### Mnemonics and source lines -/

theorem instrOf_spelling (i : Instr) : instrOf i.spelling i.operand = some i := by
  cases i <;> simp [instrOf, Instr.spelling, Instr.operand]

/-- The mnemonics are the spellings of the instructions (R83). -/
theorem exists_instr_of_mem_mnemonicSet {mnemonic : List Char} (h : mnemonic ∈ mnemonicSet) (x : Operand) :
    ∃ i : Instr, i.spelling = mnemonic ∧ i.operand = x := by
  simp only [mnemonicSet, List.mem_cons, List.not_mem_nil, or_false] at h
  rcases h with rfl | rfl | rfl | rfl | rfl | rfl | rfl
  · exact ⟨.sea x, rfl, rfl⟩
  · exact ⟨.add x, rfl, rfl⟩
  · exact ⟨.mul x, rfl, rfl⟩
  · exact ⟨.div x, rfl, rfl⟩
  · exact ⟨.mod x, rfl, rfl⟩
  · exact ⟨.sta x, rfl, rfl⟩
  · exact ⟨.lda x, rfl, rfl⟩

theorem spelling_mem_mnemonicSet (i : Instr) : i.spelling ∈ mnemonicSet := by
  cases i <;> simp [Instr.spelling, mnemonicSet]

theorem sourceLine_wellFormed_iff {l : SourceLine} :
    l.WellFormed = true ↔ l.mnemonic ∈ mnemonicSet ∧ l.value ≤ 0xFFF := by
  simp [SourceLine.WellFormed]

theorem assembleSource_of_instr (i : Instr) : assembleSource ⟨i.spelling, i.operand.toNat⟩ = some (encode i) := by
  have hwf : (SourceLine.mk i.spelling i.operand.toNat).WellFormed = true :=
    sourceLine_wellFormed_iff.mpr ⟨spelling_mem_mnemonicSet i, Nat.le_of_lt_succ i.operand.isLt⟩
  simp [assembleSource, hwf, instrOf_spelling]

theorem assembleSource_eq_none {l : SourceLine} :
    assembleSource l = none ↔ l.mnemonic ∉ mnemonicSet ∨ 0xFFF < l.value := by
  by_cases hwf : l.WellFormed = true
  · obtain ⟨hmnemonic, hvalue⟩ := sourceLine_wellFormed_iff.mp hwf
    obtain ⟨i, hspelling, hoperand⟩ := exists_instr_of_mem_mnemonicSet hmnemonic (BitVec.ofNat 12 l.value)
    have hinstr := instrOf_spelling i
    rw [hspelling, hoperand] at hinstr
    simp [assembleSource, hwf, hinstr, hmnemonic, hvalue]
  · have hnone : assembleSource l = none := if_neg hwf
    rw [sourceLine_wellFormed_iff, not_and_or, Nat.not_le] at hwf
    simp only [hnone, hwf]

theorem zext16_toNat (x : Operand) : (zext16 x).toNat = x.toNat := immediate_toNat x

/-- The line's two tokens are the mnemonic and the digits, and the digits have the operand's value. -/
theorem assembleLine_of_instr (i : Instr) :
    assembleLine (i.spelling ++ ' ' :: snapshotWord (zext16 i.operand)) = .ok [encode i] := by
  have hreturn : ∀ c ∈ i.spelling ++ ' ' :: snapshotWord (zext16 i.operand), c ≠ '\r' := by
    intro c hc
    rcases List.mem_append.mp hc with hc | hc
    · exact (isTokenChar_of_mem_spelling hc).2
    · rcases List.mem_cons.mp hc with rfl | hc
      · decide
      · exact (isTokenChar_of_mem_snapshotWord hc).2
  have htokens : tokensFrom [] (dropReturn (i.spelling ++ ' ' :: snapshotWord (zext16 i.operand))) =
      [i.spelling, snapshotWord (zext16 i.operand)] := by
    rw [dropReturn_eq_self hreturn]
    refine tokensFrom_two_tokens (fun _ => isTokenChar_of_mem_spelling) (fun _ => isTokenChar_of_mem_snapshotWord) ?_ ?_
    · cases i <;> simp [Instr.spelling]
    · simp [snapshotWord]
  have hparse : parseTokens i.spelling (snapshotWord (zext16 i.operand)) = some ⟨i.spelling, i.operand.toNat⟩ := by
    simp [parseTokens, hexValueFrom_snapshotWord, zext16_toNat]
  simp [assembleLine, htokens, hparse, assembleSource_of_instr]

end Sys2Proof.Machine

namespace Sys2Proof.Proofs.Loader
open Sys2Proof.Machine

/-- Settles O45, by induction on the words: the load fails exactly where they do not fit, and otherwise each word
stays where it was written. -/
theorem loaderPlacesWords : Obligations.LoaderPlacesWords := by
  refine fun size ws => ⟨fun hfits => ?fits, fun hlong => ?tooLong⟩
  case fits =>
    obtain ⟨m, hm⟩ := exists_loadFrom (size := size) (a := 0) (ws := ws) [] (by omega)
    refine ⟨(State.create size).writeMem m, by simp [loadWords, hm], fun k w hk => ?word, fun a ha => ?rest, rfl, ?wf⟩
    case word =>
      have hword := loadFrom_readWord hm hk
      rw [Nat.zero_add] at hword
      exact hword
    case rest => exact loadFrom_frame hm (.inr (by omega))
    case wf => exact loadFrom_wf ⟨.nil, by simp⟩ hm
  case tooLong =>
    have hnone := (loadFrom_eq_none (m := []) (Nat.zero_le size)).mpr (by omega : size < 0 + 2 * ws.length)
    simp [loadWords, hnone]

/-- Settles O46: the line splits into its two tokens, which name the instruction (`assembleLine_of_instr`). -/
theorem sourceLineAssembles : Obligations.SourceLineAssembles := assembleLine_of_instr

/-- Settles O47: a well-formed line names an instruction (`assembleSource_eq_none`), and a line of separators has no
token. -/
theorem sourceLineRefusals : Obligations.SourceLineRefusals := by
  refine ⟨fun l => assembleSource_eq_none, fun line h => ?_⟩
  rw [assembleLine, dropReturn_eq_self fun c hc => ne_return_of_isSeparator (h c hc), tokensFrom_separators h]

/-- Settles O48: each of the four characters is a digit below 16 in upper case, and their value is the word's. -/
theorem snapshotIsFourUppercaseDigits : Obligations.SnapshotIsFourUppercaseDigits := by
  refine fun w => ⟨rfl, hexValueFrom_snapshotWord w, fun c hc => ?_⟩
  obtain ⟨n, hn, rfl⟩ := mem_snapshotWord hc
  exact hexDigit_uppercase hn

end Sys2Proof.Proofs.Loader

/-! SUPPORT. What the host reads of the block, the lines of a dump, and fetch_unit beside the fetch phase
(spec/20_memory.md R62 to R64, spec/40_cycle.md R94, R100, spec/70_reset_and_hazards.md R208, R209). -/

namespace Sys2Proof.Machine

variable {s t : State}

/-! ### The host's view of a step -/

theorem errorReport_of_inv (h : s.Inv) : errorReport s = s.fault := by
  unfold errorReport
  split
  · rfl
  · next hp => exact (h.fault_eq_none hp).symm

theorem observe_next_eq_some : observe (.next t) = some (snapshot t) ↔ t.phase = .fetch := by
  simp [observe]

theorem observe_next_eq_none : observe (.next t) = none ↔ t.phase ≠ .fetch := by
  simp [observe]

theorem not_terminal_of_fetch (h : t.phase = .fetch) : ¬ t.Terminal := by
  simp [State.Terminal, h]

/-! ### The lines of a dump -/

section CutLines

variable {α : Type} {n : Nat} {l : List α}

/-- Line `k` begins within the list exactly for the lines there are. -/
theorem lt_numLines_iff (hn : 0 < n) (len k : Nat) : k < (len + n - 1) / n ↔ n * k < len := by
  rw [← Nat.succ_le_iff, Nat.le_div_iff_mul_le hn, Nat.succ_mul, Nat.mul_comm k n]
  omega

theorem cutLines_length (n : Nat) (l : List α) : (cutLines n l).length = (l.length + n - 1) / n := by
  simp [cutLines]

theorem cutLines_getElem?_eq_some {k : Nat} {line : List α} (h : (cutLines n l)[k]? = some line) :
    k < (l.length + n - 1) / n ∧ line = (l.drop (n * k)).take n := by
  simp only [cutLines, List.getElem?_map, Option.map_eq_some_iff, List.getElem?_eq_some_iff, List.length_range,
    List.getElem_range] at h
  obtain ⟨j, ⟨hj, rfl⟩, hline⟩ := h
  exact ⟨hj, hline.symm⟩

/-- The first `j` lines hold the first `n * j` elements. -/
theorem flatten_lines_eq_take (n : Nat) (l : List α) (j : Nat) :
    ((List.range j).map fun k => (l.drop (n * k)).take n).flatten = l.take (n * j) := by
  induction j with
  | zero => simp
  | succ j ih =>
    rw [List.range_succ, List.map_append, List.flatten_append, ih, Nat.mul_succ, List.take_add]
    simp

theorem cutLines_flatten (hn : 0 < n) (l : List α) : (cutLines n l).flatten = l := by
  have hall : ¬ n * ((l.length + n - 1) / n) < l.length := fun h =>
    Nat.lt_irrefl _ ((lt_numLines_iff hn _ _).mpr h)
  rw [cutLines, flatten_lines_eq_take, List.take_of_length_le (by omega)]

/-- No line is empty or too long, and each line but the last is full. -/
theorem cutLines_line_length (hn : 0 < n) {k : Nat} {line : List α} (h : (cutLines n l)[k]? = some line) :
    0 < line.length ∧ line.length ≤ n ∧ (k + 1 < (cutLines n l).length → line.length = n) := by
  obtain ⟨hk, rfl⟩ := cutLines_getElem?_eq_some h
  rw [lt_numLines_iff hn] at hk
  rw [cutLines_length, lt_numLines_iff hn, Nat.mul_succ, List.length_take, List.length_drop]
  omega

end CutLines

theorem bytesPerLine_pos (fmt : DumpFormat) : 0 < bytesPerLine fmt := by cases fmt <;> decide

theorem dumpBytes_length (m : Memory) {first last : Nat} (h : first ≤ last) :
    (dumpBytes m first last).length = last - first + 1 := by
  simp only [dumpBytes, List.length_map, List.length_range]
  omega

theorem dumpBytes_getElem? (m : Memory) {first last k : Nat} (h : first ≤ last) (hk : k < last - first + 1) :
    (dumpBytes m first last)[k]? = some (readByte m (first + k)) := by
  rw [dumpBytes, List.getElem?_map, List.getElem?_range (by omega), Option.map_some]

theorem dump_eq_error {first last : Int} {fmt : DumpFormat} :
    dump s first last fmt = .error .outOfRange ↔ first < 0 ∨ last ≥ s.memSize ∨ first > last := by
  unfold dump
  split <;> simp_all

/-- Everything a dump that does not fail answers. -/
theorem dump_eq_ok {first last : Int} {fmt : DumpFormat} {lines : List (List (List Char))}
    (h : dump s first last fmt = .ok lines) : first.toNat ≤ last.toNat ∧
      lines = cutLines (bytesPerLine fmt) ((dumpBytes s.mem first.toNat last.toNat).map (dumpByte fmt)) := by
  unfold dump at h
  split at h
  · cases h
  · next hrange =>
    cases h
    exact ⟨by omega, rfl⟩

/-! ### The text of a byte -/

theorem byte_getLsbD (b : Byte) (k : Nat) : b.getLsbD k = decide (b.toNat / 2 ^ k % 2 = 1) := by
  rw [← BitVec.testBit_toNat, Nat.testBit_eq_decide_div_mod_eq]

theorem bitPlaces_getElem? {j : Nat} (hj : j < 8) : [7, 6, 5, 4, 3, 2, 1, 0][j]? = some (7 - j) := by
  revert j
  decide

theorem dumpByte_binary_getElem? (b : Byte) {j : Nat} (hj : j < 8) :
    (dumpByte .binary b)[j]? = some (if b.toNat / 2 ^ (7 - j) % 2 = 1 then '1' else '0') := by
  rw [dumpByte, List.getElem?_map, bitPlaces_getElem? hj, Option.map_some, byte_getLsbD]
  simp only [decide_eq_true_eq]

/-- The value of a dumped byte's two digits does not depend on the case of the letters. -/
theorem hexValueFrom_dumpByte (b : Byte) : hexValueFrom 0 (dumpByte .hexadecimal b) = some b.toNat := by
  have hb := b.isLt
  have hhi : b.toNat / 16 < 16 := by omega
  have hlo : b.toNat % 16 < 16 := by omega
  rw [dumpByte, hexValueFrom_hexDigit_cons _ hhi, hexValueFrom_hexDigit_cons _ hlo]
  refine congrArg some ?_
  omega

/-! ### fetch_unit -/

theorem controlOut_start_iff : (controlOut s).start = true ↔ s.Ready := by
  simp only [controlOut, Bool.and_eq_true, decide_eq_true_eq, Bool.not_eq_true']
  exact ⟨fun ⟨hp, hs⟩ => ⟨hp, hs⟩, fun ⟨hp, hs⟩ => ⟨hp, hs⟩⟩

theorem fetchUnit_done (start : Bool) (pc : Word) (reply : MemReply) : (fetchUnit start pc reply).done = start := by
  cases start <;> rfl

end Sys2Proof.Machine

namespace Sys2Proof.Proofs.Observer
open Sys2Proof.Machine

/-- Settles O49: the lines are the byte texts cut by `cutLines`, which loses none and fills each line but the last. -/
theorem dumpWritesTheRange : Obligations.DumpWritesTheRange := by
  refine fun s first last fmt => ⟨dump_eq_error, fun lines h => ?_⟩
  obtain ⟨hle, rfl⟩ := dump_eq_ok h
  rw [cutLines_flatten (bytesPerLine_pos fmt)]
  refine ⟨rfl, ?length, fun k hk => ?token, fun k line => cutLines_line_length (bytesPerLine_pos fmt)⟩
  case length => rw [List.length_map, dumpBytes_length _ hle]
  case token => rw [List.getElem?_map, dumpBytes_getElem? _ hle hk, Option.map_some]

/-- Settles O53: two digits have the byte's value, and place `j` of the binary text shows bit `7 - j`. -/
theorem dumpByteShowsItsValue : Obligations.DumpByteShowsItsValue :=
  fun b => ⟨rfl, hexValueFrom_dumpByte b, rfl, fun _ => dumpByte_binary_getElem? b⟩

/-- Settles O50: the step keeps the invariant, under which the error report is the fault register, and ends in FETCH or
in a terminal phase. -/
theorem hostSeesFaultOrSnapshot : Obligations.HostSeesFaultOrSnapshot := by
  intro s t h hstep
  have hinv := h.step hstep
  rw [errorReport_of_inv hinv, hstep, observe_next_eq_some, observe_next_eq_none]
  refine ⟨rfl, hinv.faultIffHalted.symm, Iff.rfl, fun hne => ?_, fun hterm hp => not_terminal_of_fetch hp hterm⟩
  exact (step_fetch_or_terminal hstep).resolve_left hne

/-- Settles O52: the unit is started exactly where the fetch phase runs, and memory's reply is the word at PC. -/
theorem fetchUnitDrivesFetch : Obligations.FetchUnitDrivesFetch := by
  refine fun s => ⟨?done, fun hr hoor => ?outOfRange, fun hr hoor => ?inRange⟩
  case done => rw [fetchUnit_done, controlOut_start_iff]
  all_goals
    have hstart := controlOut_start_iff.mpr hr
    rw [hstart] at hoor ⊢
    rw [transition_of_ready hr]
  case outOfRange =>
    have hword := fetchWord_eq_none.mpr (oor_eq_true.mp hoor)
    exact ⟨fetch_of_fetchWord_eq_none (s := s.sampled) hword, if_pos hoor, if_pos hoor⟩
  case inRange =>
    have hword := fetchWord_eq_some.mpr ⟨oor_eq_false.mp hoor, rfl⟩
    have hno := Bool.eq_false_iff.mp hoor
    exact ⟨_, fetch_of_fetchWord_eq_some (s := s.sampled) hword, (if_neg hno).trans hword, if_neg hno⟩

end Sys2Proof.Proofs.Observer
